-- ==== Sys2Proof/Word.lean ====
section
/-! DEFINITION. The word types of the block: one byte and one 16-bit length register. -/

namespace Sys2Proof

/-- An unsigned 8-bit value: a command byte, `STATUS`, a `BYTES` cell (00_scope.md R5, R6). Bit `i` has weight `2^i`. -/
abbrev Byte := BitVec 8

/-- An unsigned 16-bit value: `NBITS` or `NBYTES` (00_scope.md R5, 10_state.md R14, R15). -/
abbrev Half := BitVec 16

end Sys2Proof
end

