-- ==== Sys2Proof/Syntax.lean ====
section
/-! DEFINITION. The commands of the block, one constructor per row of spec/opcode_table.json. -/

namespace Sys2Proof

/-- The two commands (30_encoding.md R58). A command has no operand fields (30_encoding.md R57): its operands are the
length register and the cells its rule names. -/
inductive Instr where
  /-- `PACK`, the source's `encode(bits)` (40_pack.md R71). -/
  | pack
  /-- `UNPACK`, the source's `decode(bytes)` (41_unpack.md R80). -/
  | unpack
  deriving DecidableEq, Repr

end Sys2Proof
end

