-- ==== Sys2Proof/Decode.lean ====
section
/-! DEFINITION. The command byte: its decoder, total on all 256 bytes, and its encoder (30_encoding.md R57 to R59). -/

namespace Sys2Proof

/-- Why a byte is no command (30_encoding.md R59). -/
inductive IllegalCommand where
  /-- Bits 7:2, which must be zero, are not. -/
  | reservedBits (rsv : BitVec 6)
  /-- `OP` is `00` or `11`. -/
  | reservedOp (op : BitVec 2)
  deriving DecidableEq, Repr

/-- What the decoder answers: a command, or a rejection by name. -/
inductive Decoded where
  | instr (i : Instr)
  | illegal (why : IllegalCommand)
  deriving DecidableEq, Repr

/-- The field `OP`, bits 1:0 (30_encoding.md R57). -/
def opField (c : Byte) : BitVec 2 := c.extractLsb' 0 2

/-- The reserved field `RSV`, bits 7:2 (30_encoding.md R57). -/
def rsvField (c : Byte) : BitVec 6 := c.extractLsb' 2 6

/-- All 8 bits are decoded (30_encoding.md R58); every byte but 0x01 and 0x02 is illegal (30_encoding.md R59). -/
def decode (c : Byte) : Decoded :=
  if rsvField c ≠ 0 then .illegal (.reservedBits (rsvField c))
  else if opField c = 0b01 then .instr .pack
  else if opField c = 0b10 then .instr .unpack
  else .illegal (.reservedOp (opField c))

/-- The command, when the byte is one. -/
def Decoded.toInstr? : Decoded → Option Instr
  | .instr i => some i
  | .illegal _ => none

/-- The field `OP` of each command (30_encoding.md R58). -/
def encodeOp : Instr → BitVec 2
  | .pack => 0b01
  | .unpack => 0b10

/-- The byte the host writes to `CMD` for a command: `RSV` zero above `OP` (30_encoding.md R57). -/
def encode (i : Instr) : Byte := (0 : BitVec 6) ++ encodeOp i

/-- The command in the low `nbits` bits of `w`, numbered as spec/opcode_table.json numbers them. A command is one byte
(30_encoding.md R57), so a number that needs a second byte is none. -/
def decodeTableWord (nbits w : Nat) : Option Instr :=
  if w % 2 ^ nbits < 256 then (decode (BitVec.ofNat 8 (w % 2 ^ nbits))).toInstr? else none

end Sys2Proof
end

