-- ==== Sys2Proof/Config.lean ====
section
/-! DEFINITION. The parameters of the block (00_scope.md R5) and its free values. -/

namespace Sys2Proof

/-- `BITS_PER_BYTE` (00_scope.md R5). -/
abbrev Config.bitsPerByte : Nat := 8

/-- `MAX_N`, the largest byte count one byte can hold (00_scope.md R5). -/
abbrev Config.maxN : Nat := 255

/-- `MAX_BITS`, the longest sequence `PACK` accepts (00_scope.md R5, 40_pack.md R72). -/
abbrev Config.maxBits : Nat := 2040

/-- `PROTOCOL_MAX_BITS`: a duty of the host, enforced by no command (00_scope.md R5, 40_pack.md R76). -/
abbrev Config.protocolMaxBits : Nat := 2000

/-- `BITCAP`, the number of `BITS` cells (00_scope.md R5). -/
abbrev Config.bitCap : Nat := 2040

/-- `BYTECAP`, the number of `BYTES` cells (00_scope.md R5). -/
abbrev Config.byteCap : Nat := 256

/-- FREE VALUE (10_state.md R26: "A model treats the value as `any value` (a draw)"; log 3).
What the cell `BITS[p]` holds after the reset event number `epoch` while nothing has written it. It has no body, so no
proof can see it. -/
opaque Config.unwrittenBit : (epoch p : Nat) → Bool

/-- FREE VALUE (10_state.md R26, log 3). What the cell `BYTES[i]` holds after the reset event number `epoch` while
nothing has written it. -/
opaque Config.unwrittenByte : (epoch i : Nat) → Byte

end Sys2Proof
end

