-- ==== Sys2Proof/Machine/Actions.lean ====
section
/-! DEFINITION. What the outside does to the block between commands: the host's accesses (10_state.md R25), the
platform's reset event (70_reset_and_hazards.md R140) and the lines of the notation of 30_encoding.md R60, R61. -/

namespace Sys2Proof.Machine

/-- What a host access names: a register, or one cell by its index (20_memory.md R37, R45: "a model reaches state by
name and index"). An index outside its buffer can be written down; it names no cell (20_memory.md R39). -/
inductive Location where
  | cmd
  | status
  | nbits
  | nbytes
  | bit (p : Nat)
  | byte (i : Nat)
  deriving DecidableEq, Repr

/-- The location names a register or an existing cell (20_memory.md R39). -/
def Location.inRange : Location → Bool
  | .cmd => true
  | .status => true
  | .nbits => true
  | .nbytes => true
  | .bit p => decide (p < Config.bitCap)
  | .byte i => decide (i < Config.byteCap)

/-- What one access carries: one bit, 8 bits or 16 bits (20_memory.md R37). -/
inductive CellValue where
  | bit (b : Bool)
  | byte (v : Byte)
  | half (v : Half)
  deriving DecidableEq, Repr

/-- One read of the host: the register or cell it named, and the value it returned (70_reset_and_hazards.md R152). -/
structure ReadRecord where
  source : Location
  value : CellValue
  deriving DecidableEq, Repr

/-- One action on the block from outside. Writing a byte to `cmd` performs a command (10_state.md R12). -/
inductive HostAction where
  | read (l : Location)
  | write (l : Location) (v : CellValue)
  /-- The reset event, raised by the platform between commands (70_reset_and_hazards.md R140). -/
  | reset
  deriving DecidableEq, Repr

/-- One line of a command sequence (30_encoding.md R60) or the pseudo-operation `UNPACKN c` (30_encoding.md R61). -/
inductive Line where
  | pack
  | unpack
  /-- `CMD hh` -/
  | cmd (c : Byte)
  /-- `LDBITS b0 b1 ... b(k-1)` -/
  | ldBits (bs : List Bool)
  /-- `LDBYTES h0 h1 ... h(k-1)` -/
  | ldBytes (hs : List Byte)
  | setNbits (n : Half)
  | setNbytes (n : Half)
  | rdStatus
  | rdBits
  | rdBytes
  /-- `UNPACKN c`, `0 ≤ c ≤ 65535` -/
  | unpackN (c : Half)
  deriving DecidableEq, Repr

end Sys2Proof.Machine
end

