-- ==== Sys2Proof/Machine/State.lean ====
section
/-! DEFINITION. The state of the block, its reset value, and the reasons a step of the model can stop. -/

namespace Sys2Proof.Machine

/-- A buffer: the cells written since the last reset event, with their values, addresses strictly rising. An address
that is not listed is a cell nothing has written since reset: it has NO VALUE here, and a read of it gives a free value
(10_state.md R26, log 3). For `BYTES` this is a list of `Host.Cell`. -/
abbrev Memory (α : Type) := List (Nat × α)

/-- The canonical form of a buffer of `size` cells: addresses strictly rising, each below `size`. No entry can equal
what an unlisted address reads as, since that is no value. -/
def Memory.wf {α : Type} (size : Nat) : Memory α → Bool
  | [] => true
  | [c] => decide (c.1 < size)
  | c :: d :: m => decide (c.1 < d.1) && Memory.wf size (d :: m)

/-- The reasons for which the model's machine stops with a fault: NONE. The block's own faults (60_exceptions.md R120)
are values of `STATUS.FAULT` in a next state, after which the block goes on (60_exceptions.md R125, R126), and "No
behaviour of the block is left `stuck`: every command terminates with success or a fault"
(93_implementation_defined.md, Part 1). -/
inductive Fault where
  deriving DecidableEq, Repr

/-- The reasons for which the model gives no meaning. No command raises any of the last three. -/
inductive Refusal where
  /-- Raised by an arm of `exec` with no meaning yet (no arm now). Safe. -/
  | notModelled (mnemonic : String)
  /-- Raised by a host access to `BITS[p]`, `p ≥ 2040`, or `BYTES[i]`, `i ≥ 256`: "a model gives it no meaning"
  (20_memory.md R39). Safe. -/
  | noSuchCell (l : Location)
  /-- Raised by a host write whose value has not the width of the register or cell: no such access exists
  (20_memory.md R37, log 6). Safe. -/
  | wrongWidth (l : Location) (v : CellValue)
  /-- Raised by a bus access at an address where the platform's `HOST_MAP` places nothing (20_memory.md R45, log 7).
  Safe. -/
  | unmappedBusAddress (a : Nat)
  deriving DecidableEq, Repr

/-- The whole state (10_state.md R11): the registers that have storage and the two buffers; `CMD` stores nothing
(10_state.md R12). The last three fields are the model's own. -/
structure State where
  /-- `STATUS` (10_state.md R13). -/
  status : Byte
  /-- `NBITS` (10_state.md R14). -/
  nbits : Half
  /-- `NBYTES` (10_state.md R15). -/
  nbytes : Half
  /-- `BITS[0..2039]` (10_state.md R16). -/
  bits : Memory Bool
  /-- `BYTES[0..255]` (10_state.md R17). -/
  bytes : Memory Byte
  /-- MODEL'S OWN (log 4): how many reset events there have been; it selects the free values of unwritten cells. -/
  epoch : Nat
  /-- MODEL'S OWN (log 1): the host's actions still to come, the next one first. -/
  actions : List HostAction
  /-- MODEL'S OWN (log 5): the host's reads with the values they returned, oldest first. -/
  reads : List ReadRecord
  deriving DecidableEq, Repr

/-- The state right after reset (10_state.md R23, 70_reset_and_hazards.md R140): registers zero, no cell written. The
values of the last three fields are the model's (log 1, log 4, log 5). -/
def State.reset : State where
  status := 0x00
  nbits := 0
  nbytes := 0
  bits := []
  bytes := []
  epoch := 0
  actions := []
  reads := []

end Sys2Proof.Machine
end

