-- ==== Sys2Proof/Machine/Flags.lean ====
section
/-! DEFINITION. The one flag of the block, `STATUS.FAULT` (10_state.md R13, R20), and its codes (60_exceptions.md R120). -/

namespace Sys2Proof.Machine

/-- The outcomes of a command (60_exceptions.md R120). -/
inductive FaultCode where
  /-- Code 0, `None`: the last command succeeded, or no command since reset. -/
  | noFault
  /-- Code 1, raised by `UNPACK` only. -/
  | frameError
  /-- Code 2, raised by `PACK` only. -/
  | packOverflow
  /-- Code 3, raised by an illegal command byte. -/
  | illegalOp
  deriving DecidableEq, Repr

/-- The code of an outcome (60_exceptions.md R120). -/
def FaultCode.code : FaultCode → BitVec 2
  | .noFault => 0
  | .frameError => 1
  | .packOverflow => 2
  | .illegalOp => 3

/-- The whole `STATUS` byte that reports an outcome: the code in bits 1:0, bits 7:2 zero (10_state.md R13). -/
def FaultCode.statusByte (f : FaultCode) : Byte := (0 : BitVec 6) ++ f.code

/-- The field `FAULT`, bits 1:0, of a `STATUS` byte (10_state.md R13). -/
def faultBits (status : Byte) : BitVec 2 := status.extractLsb' 0 2

/-- `STATUS.FAULT` (10_state.md R13). -/
def State.faultField (s : State) : BitVec 2 := faultBits s.status

end Sys2Proof.Machine
end

