-- ==== Sys2Proof/Machine/Ops.lean ====
section
/-! DEFINITION. The operations over the buffers and registers, and the one way a command reports its outcome. -/

namespace Sys2Proof.Machine

/-- The value written to an address since reset, if any. -/
def Memory.read {α : Type} : Memory α → Nat → Option α
  | [], _ => none
  | (b, v) :: m, a => if a = b then some v else Memory.read m a

/-- One cell written, the addresses kept rising. -/
def Memory.write {α : Type} : Memory α → Nat → α → Memory α
  | [], a, v => [(a, v)]
  | (b, w) :: m, a, v =>
    if a < b then (a, v) :: (b, w) :: m
    else if a = b then (a, v) :: m
    else (b, w) :: Memory.write m a v

/-- Values at consecutive addresses from `a` on. -/
def Memory.cellsFrom {α : Type} (a : Nat) : List α → Memory α
  | [] => []
  | v :: vs => (a, v) :: Memory.cellsFrom (a + 1) vs

/-- The cells `0 .. len(vs) - 1` written with `vs`, all at once; the cells above keep what they hold. Both commands
write their result so, "starting always at cell 0" (42_laws_and_pseudo_ops.md R96; 40_pack.md R75, 41_unpack.md R86). -/
def Memory.writePrefix {α : Type} (m : Memory α) (vs : List α) : Memory α :=
  Memory.cellsFrom 0 vs ++ m.filter (fun c => decide (vs.length ≤ c.1))

/-- What `BITS[p]` holds, for `p < 2040`; a cell nothing has written since reset holds its free value
(10_state.md R26). -/
def State.readBit (s : State) (p : Nat) : Bool :=
  match s.bits.read p with
  | some b => b
  | none => Config.unwrittenBit s.epoch p

/-- What `BYTES[i]` holds, for `i < 256` (10_state.md R17, R26). -/
def State.readByte (s : State) (i : Nat) : Byte :=
  match s.bytes.read i with
  | some v => v
  | none => Config.unwrittenByte s.epoch i

/-- `BITS[p] <- b` (00_scope.md R9). -/
def State.writeBit (s : State) (p : Nat) (b : Bool) : State := { s with bits := s.bits.write p b }

/-- `BYTES[i] <- v` (00_scope.md R9). -/
def State.writeByte (s : State) (i : Nat) (v : Byte) : State := { s with bytes := s.bytes.write i v }

/-- `BITS[q] <- t[q]` for every position of `t` (41_unpack.md R80). -/
def State.storeBits (s : State) (t : List Bool) : State := { s with bits := s.bits.writePrefix t }

/-- `BYTES[a] <- f[a]` for every byte of the frame `f` (40_pack.md R71). -/
def State.storeBytes (s : State) (f : List Byte) : State := { s with bytes := s.bytes.writePrefix f }

/-- `NBITS <- v`. -/
def State.setNbits (s : State) (v : Half) : State := { s with nbits := v }

/-- `NBYTES <- v`. -/
def State.setNbytes (s : State) (v : Half) : State := { s with nbytes := v }

/-- `STATUS` as a command leaves it: the outcome of that command and nothing of earlier ones (10_state.md R13). -/
def State.report (s : State) (f : FaultCode) : State := { s with status := f.statusByte }

/-- TAKING A FAULT (60_exceptions.md R125): `STATUS <- code` and nothing else. Control goes nowhere: "there is no handler,
vector table, saved program counter, mode change, mask or stack". There is no return from it beside it, because "There is no
return-from-fault operation and nothing to restore" (60_exceptions.md R126). -/
def raise (f : FaultCode) (s : State) : Host.Outcome State Fault Refusal := .next (s.report f)

/-- A successful command's end: `STATUS <- 0x00` (40_pack.md R71, 41_unpack.md R80). -/
def succeed (s : State) : Host.Outcome State Fault Refusal := .next (s.report .noFault)

/-- The host keeps what its read named and returned; the block is unchanged (20_memory.md R38, log 5). -/
def State.returnRead (s : State) (r : ReadRecord) : State := { s with reads := s.reads ++ [r] }

/-- THE RESET EVENT (70_reset_and_hazards.md R140): the registers as 10_state.md R23 says, and every cell unspecified again
(70_reset_and_hazards.md R147), so the next epoch's free values. What the host still has to do and what it has read are the
host's (log 4). -/
def State.resetEvent (s : State) : State :=
  { State.reset with epoch := s.epoch + 1, actions := s.actions, reads := s.reads }

end Sys2Proof.Machine
end

