-- ==== Sys2Proof/Machine/Frame.lean ====
section
/-! DEFINITION. The packing and unpacking functions and the map between positions and bits of the frame
(20_memory.md R33 to R35, 40_pack.md R70, 41_unpack.md R82). -/

namespace Sys2Proof.Machine

/-- `ceil(L/8)`, the byte count of a sequence of `L` booleans (30_encoding.md R52). -/
def byteCountOf (L : Nat) : Nat := (L + 7) / Config.bitsPerByte

/-- The data byte `p div 8` that holds logical position `p` (20_memory.md R33). -/
def dataIndex (p : Nat) : Nat := p / Config.bitsPerByte

/-- The bit `p mod 8` of its data byte that holds logical position `p` (20_memory.md R33). -/
def lane (p : Nat) : Nat := p % Config.bitsPerByte

/-- The frame address `1 + p div 8` of logical position `p` (20_memory.md R35). -/
def frameAddress (p : Nat) : Nat := 1 + dataIndex p

/-- The logical position in bit `i` of frame byte `a`, for `1 ≤ a` (20_memory.md R35, the way back). -/
def positionOf (a i : Nat) : Nat := Config.bitsPerByte * (a - 1) + i

/-- The weight position `p` adds to its data byte: `2^(p mod 8)` when `p < L` and the boolean is `true`, else 0, so that
padding is zero (30_encoding.md R53, R54). -/
def weight (s : List Bool) (p : Nat) : Nat := if s.getD p false then 2 ^ lane p else 0

/-- Data byte `k`: the sum of the weights of positions `8k` to `8k + 7` (30_encoding.md R53). -/
def packByte (s : List Bool) (k : Nat) : Byte :=
  BitVec.ofNat 8 ((List.range 8).map (fun i => weight s (Config.bitsPerByte * k + i))).sum

/-- The frame of a sequence: the count, then the data bytes in ascending order (30_encoding.md R50, R52; 20_memory.md R34). -/
def packFrame (s : List Bool) : List Byte :=
  BitVec.ofNat 8 (byteCountOf s.length) :: (List.range (byteCountOf s.length)).map (packByte s)

/-- `pack(s)` (40_pack.md R70): "For `L > 2040`, `pack(s)` is not defined". -/
def pack (s : List Bool) : Option (List Byte) :=
  if s.length ≤ Config.maxBits then some (packFrame s) else none

/-- The boolean at position `q` of the data bytes `d` (41_unpack.md R82). -/
def unpackBit (d : List Byte) (q : Nat) : Bool := (d.getD (dataIndex q) 0).getLsbD (lane q)

/-- All `8*N` booleans of `N` data bytes, padding included (41_unpack.md R82, R84). -/
def unpackData (d : List Byte) : List Bool :=
  (List.range (Config.bitsPerByte * d.length)).map (unpackBit d)

/-- `unpack(f)` (41_unpack.md R82), defined "for a frame `f` of exactly `1 + N` bytes whose byte 0 is `N`". -/
def unpack : List Byte → Option (List Bool)
  | [] => none
  | n :: d => if d.length = n.toNat then some (unpackData d) else none

end Sys2Proof.Machine
end

