-- ==== Sys2Proof/Machine/Operands.lean ====
section
/-! DEFINITION. The operands of the two commands (30_encoding.md R63): a length, unsigned and unscaled, and a range of
cells from cell 0 on. -/

namespace Sys2Proof.Machine

/-- `L = NBITS`, the length of the sequence to pack (10_state.md R14). -/
def State.bitLength (s : State) : Nat := s.nbits.toNat

/-- `[BITS[0] = 1, ..., BITS[L-1] = 1]` (40_pack.md R71). -/
def State.bitOperand (s : State) : List Bool := (List.range s.bitLength).map s.readBit

/-- `A = NBYTES`, how many bytes the host made available from `BYTES[0]` on (10_state.md R15). -/
def State.available (s : State) : Nat := s.nbytes.toNat

/-- `N = BYTES[0]`, as a natural number, so that `1 + N` does not wrap (42_laws_and_pseudo_ops.md R93). -/
def State.byteCount (s : State) : Nat := (s.readByte 0).toNat

/-- The data bytes `BYTES[1], ..., BYTES[N]` (41_unpack.md R80). -/
def State.dataOperand (s : State) : List Byte := (List.range s.byteCount).map (fun k => s.readByte (1 + k))

end Sys2Proof.Machine
end

