-- ==== Sys2Proof/Machine/Pack.lean ====
section
/-! DEFINITION. The meaning of `PACK` (40_pack.md R71). -/

namespace Sys2Proof.Machine

/-- What a `PACK` that does not fault writes: the frame, its length in `NBYTES` (40_pack.md R71, R77), nothing of `BITS`,
`NBITS` or the bytes beyond the frame (R75). -/
def State.packed (s : State) : State :=
  (s.storeBytes (packFrame s.bitOperand)).setNbytes (BitVec.ofNat 16 (1 + byteCountOf s.bitLength))

/-- `PACK` (40_pack.md R71). The check is on `NBITS` alone and comes first (R72); the protocol's 1 to 2000 is not checked
(R76). -/
def execPack (s : State) : Host.Outcome State Fault Refusal :=
  if Config.maxBits < s.bitLength then raise .packOverflow s else succeed s.packed

end Sys2Proof.Machine
end

