-- ==== Sys2Proof/Machine/Unpack.lean ====
section
/-! DEFINITION. The meaning of `UNPACK` (41_unpack.md R80). -/

namespace Sys2Proof.Machine

/-- What an `UNPACK` that does not fault writes: all `8*N` booleans, their number in `NBITS` (41_unpack.md R80, R88),
nothing of `BYTES`, `NBYTES` or the cells beyond the sequence (R86). -/
def State.unpacked (s : State) : State :=
  (s.storeBits (unpackData s.dataOperand)).setNbits (BitVec.ofNat 16 (Config.bitsPerByte * s.byteCount))

/-- `UNPACK` (41_unpack.md R80). `BYTES[0]` is not looked at when `NBYTES = 0` (60_exceptions.md R124); bytes after the frame
and padding are not checked (41_unpack.md R83, R84, R87). -/
def execUnpack (s : State) : Host.Outcome State Fault Refusal :=
  if s.available = 0 then raise .frameError s
  else if s.available < 1 + s.byteCount then raise .frameError s
  else succeed s.unpacked

end Sys2Proof.Machine
end

