-- ==== Sys2Proof/Machine/HostAccess.lean ====
section
/-! DEFINITION. A write to `CMD`, the host's other accesses (10_state.md R25), and the order in which they are taken. -/

namespace Sys2Proof.Machine

/-- A host write of the byte `c` to `CMD` (10_state.md R12): the byte is decoded first (60_exceptions.md R124), a command is
performed whole, an illegal byte faults with `IllegalOp` and performs nothing (60_exceptions.md R123). The byte is not
kept. -/
def command (c : Byte) (s : State) : Host.Outcome State Fault Refusal :=
  match decode c with
  | .instr i => exec i s
  | .illegal _ => raise .illegalOp s

/-- What a host read of a register or cell returns (10_state.md R25): `CMD` reads 0x00 (10_state.md R12). -/
def State.look (s : State) : Location → CellValue
  | .cmd => .byte 0x00
  | .status => .byte s.status
  | .nbits => .half s.nbits
  | .nbytes => .half s.nbytes
  | .bit p => .bit (s.readBit p)
  | .byte i => .byte (s.readByte i)

/-- The record of a host read of that register or cell. -/
def State.readOf (s : State) (l : Location) : ReadRecord := ⟨l, s.look l⟩

/-- A host read (20_memory.md R38: no read has a side effect). An index outside its buffer is refused (20_memory.md R39). -/
def hostRead (l : Location) (s : State) : Host.Outcome State Fault Refusal :=
  if l.inRange then .next (s.returnRead (s.readOf l)) else .refused (.noSuchCell l)

/-- A host write to a location that exists: to `CMD` it performs a command, to `STATUS` it is ignored (10_state.md R13),
elsewhere it writes that one register or cell. A value of another width is no access (20_memory.md R37, log 6). -/
def hostStore (l : Location) (v : CellValue) (s : State) : Host.Outcome State Fault Refusal :=
  match l, v with
  | .cmd, .byte c => command c s
  | .status, .byte _ => .next s
  | .nbits, .half n => .next (s.setNbits n)
  | .nbytes, .half n => .next (s.setNbytes n)
  | .bit p, .bit b => .next (s.writeBit p b)
  | .byte i, .byte x => .next (s.writeByte i x)
  | l, v => .refused (.wrongWidth l v)

/-- A host write; an index outside its buffer is refused (20_memory.md R39). -/
def hostWrite (l : Location) (v : CellValue) (s : State) : Host.Outcome State Fault Refusal :=
  if l.inRange then hostStore l v s else .refused (.noSuchCell l)

/-- One action from outside on the block. -/
def act (a : HostAction) (s : State) : Host.Outcome State Fault Refusal :=
  match a with
  | .read l => hostRead l s
  | .write l v => hostWrite l v s
  | .reset => .next s.resetEvent

/-- The host's next action, and the state in which it is no longer to come (20_memory.md R40, log 1). -/
def State.nextAction? (s : State) : Option (HostAction × State) :=
  match s.actions with
  | [] => none
  | a :: rest => some (a, { s with actions := rest })

/-- The state in which `a` is the host's next action. -/
def State.withNextAction (s : State) (a : HostAction) : State := { s with actions := a :: s.actions }

/-- The host action that starts the command in the low `nbits` bits of `w`: its byte written to `CMD`. -/
def commandWrite (nbits w : Nat) : HostAction := .write .cmd (.byte (BitVec.ofNat 8 (w % 2 ^ nbits)))

end Sys2Proof.Machine
end

