-- ==== Sys2Proof/Machine/Step.lean ====
section
/-! DEFINITION. One step of the machine: the host's next action on the block, a whole command when it is a write to `CMD`. -/

namespace Sys2Proof.Machine

/-- The next action in the one total order of host accesses and commands (20_memory.md R40). With no action to come the
block waits, ready for a command (60_exceptions.md R129), and the state stays as it is (log 2). -/
def step (s : State) : Host.Outcome State Fault Refusal :=
  match s.nextAction? with
  | none => .next s
  | some (a, t) => act a t

/-- `s` with the write of that command byte to `CMD` as the host's next action (log 1): "Which command runs next is decided by
the host's next write to `CMD`" (10_state.md R19). -/
def State.withFetchWord (s : State) (nbits w : Nat) : State := s.withNextAction (commandWrite nbits w)

end Sys2Proof.Machine
end

