-- ==== Sys2Proof/Machine/Bus.lean ====
section
/-! DEFINITION. The open parameter `HOST_MAP` (00_scope.md R5, 20_memory.md R45): where a platform places the registers and
cells on its bus, an argument of every definition here. No command, and nothing in `step`, depends on it. -/

namespace Sys2Proof.Machine

/-- A platform's placement: a bus address for every location. -/
abbrev HostMap := Location → Nat

/-- Every register and every cell of the block. -/
def locations : List Location :=
  [.cmd, .status, .nbits, .nbytes] ++ (List.range Config.bitCap).map .bit ++ (List.range Config.byteCap).map .byte

/-- The legal values of `HOST_MAP`: "any injective map" (92_eei_decisions.md, open parameters). -/
def HostMap.Legal (m : HostMap) : Prop :=
  ∀ l l' : Location, l.inRange = true → l'.inRange = true → m l = m l' → l = l'

/-- What the platform places at a bus address, if anything. -/
def HostMap.locate (m : HostMap) (a : Nat) : Option Location := locations.find? (fun l => m l == a)

/-- A host read at a bus address; an address at which nothing is placed is refused (log 7). -/
def busRead (m : HostMap) (a : Nat) (s : State) : Host.Outcome State Fault Refusal :=
  match m.locate a with
  | some l => act (.read l) s
  | none => .refused (.unmappedBusAddress a)

/-- A host write at a bus address; an address at which nothing is placed is refused (log 7). -/
def busWrite (m : HostMap) (a : Nat) (v : CellValue) (s : State) : Host.Outcome State Fault Refusal :=
  match m.locate a with
  | some l => act (.write l v) s
  | none => .refused (.unmappedBusAddress a)

end Sys2Proof.Machine
end

