-- ==== Sys2Proof/Machine/Run.lean ====
section
/-! DEFINITION. A run of the block: a finite sequence of host actions from the reset state or from any stated start state, what
can be observed of it, and which runs have gone wrong (70_reset_and_hazards.md R152). -/

namespace Sys2Proof.Machine

/-- What follows an outcome that is a next state; a stop stays. -/
def andThen (o : Host.Outcome State Fault Refusal) (k : State → Host.Outcome State Fault Refusal) :
    Host.Outcome State Fault Refusal :=
  match o with
  | .next t => k t
  | .fault r => .fault r
  | .refused r => .refused r

/-- A run from the start state `s`: its actions performed in their order (20_memory.md R40), ending when the host stops. -/
def actAll : List HostAction → State → Host.Outcome State Fault Refusal
  | [], s => .next s
  | a :: rest, s => andThen (act a s) (actAll rest)

/-- What can be observed of a run: "the whole state after any action" (70_reset_and_hazards.md R152), in their order. -/
def statesAfter : List HostAction → State → List State
  | [], _ => []
  | a :: rest, s =>
    match act a s with
    | .next t => t :: statesAfter rest t
    | .fault _ => []
    | .refused _ => []

/-- The action is one write of `CMD` and so performs a command, or faults (00_scope.md, glossary, "Command"). -/
def HostAction.isCommand : HostAction → Bool
  | .write .cmd (.byte _) => true
  | .write _ _ => false
  | .read _ => false
  | .reset => false

/-- The values of a run's `STATUS` reads that come after a command, in their order; `commanded` says whether a command has come
already. A `STATUS` read before the run's first command shows nothing the run did (log 10). -/
def statusReads : (commanded : Bool) → List HostAction → State → List Byte
  | _, [], _ => []
  | commanded, a :: rest, s =>
    match act a s with
    | .next t =>
      (if commanded = true ∧ a = .read .status then [s.status] else []) ++ statusReads (commanded || a.isCommand) rest t
    | .fault _ => []
    | .refused _ => []

/-- "A run is said to have gone wrong when a `STATUS` read after a command returns a nonzero `FAULT`"
(70_reset_and_hazards.md R152): any such read of the run, whatever later commands report. -/
def runWentWrong (as : List HostAction) (s : State) : Bool :=
  (statusReads false as s).any (fun v => faultBits v != 0)

end Sys2Proof.Machine
end

