-- ==== Sys2Proof/Machine/Lines.lean ====
section
/-! DEFINITION. The notation for command sequences (30_encoding.md R60) and the pseudo-operation `UNPACKN` (30_encoding.md R61,
42_laws_and_pseudo_ops.md R92), as sequences of host actions. Nothing here is a command of the block. -/

namespace Sys2Proof.Machine

/-- The write of a command's byte to `CMD`. -/
def writeCmd (c : Byte) : HostAction := .write .cmd (.byte c)

/-- Writes of consecutive `BITS` cells from `p` on. -/
def bitWrites (p : Nat) : List Bool → List HostAction
  | [] => []
  | b :: bs => .write (.bit p) (.bit b) :: bitWrites (p + 1) bs

/-- Writes of consecutive `BYTES` cells from `i` on. -/
def byteWrites (i : Nat) : List Byte → List HostAction
  | [] => []
  | v :: vs => .write (.byte i) (.byte v) :: byteWrites (i + 1) vs

/-- `LDBITS` (30_encoding.md R60): the cells, then `NBITS <- k`. -/
def ldBitsActions (bs : List Bool) : List HostAction :=
  bitWrites 0 bs ++ [.write .nbits (.half (BitVec.ofNat 16 bs.length))]

/-- `LDBYTES` (30_encoding.md R60): the cells, then `NBYTES <- k`. -/
def ldBytesActions (hs : List Byte) : List HostAction :=
  byteWrites 0 hs ++ [.write .nbytes (.half (BitVec.ofNat 16 hs.length))]

/-- `RDBITS` (30_encoding.md R60): `NBITS`, then `BITS[0 .. NBITS-1]`; with `NBITS > 2040` it comes to an index that names no
cell and is refused there (20_memory.md R39, log 9). -/
def rdBitsActions (s : State) : List HostAction :=
  .read .nbits :: (List.range s.nbits.toNat).map (fun p => .read (.bit p))

/-- `RDBYTES` (30_encoding.md R60): `NBYTES`, then `BYTES[0 .. min(NBYTES,256)-1]`. -/
def rdBytesActions (s : State) : List HostAction :=
  .read .nbytes :: (List.range (min s.nbytes.toNat Config.byteCap)).map (fun i => .read (.byte i))

/-- The last part of `UNPACKN c`: "only when `STATUS.FAULT = 0`, `SETNBITS min(c, NBITS)`" (30_encoding.md R61). -/
def truncation (c : Half) (s : State) : List HostAction :=
  if s.faultField = 0 then [.write .nbits (.half (BitVec.ofNat 16 (min c.toNat s.nbits.toNat)))] else []

/-- `UNPACKN c` (30_encoding.md R61): `UNPACK`, a read of `STATUS`, then the truncation that the state then calls for. -/
def unpackNActions (c : Half) (s : State) : List HostAction :=
  match actAll [writeCmd (encode .unpack), .read .status] s with
  | .next t => [writeCmd (encode .unpack), .read .status] ++ truncation c t
  | .fault _ => [writeCmd (encode .unpack), .read .status]
  | .refused _ => [writeCmd (encode .unpack), .read .status]

/-- The host actions one line stands for at the state it meets (30_encoding.md R60, R61). -/
def lineActions (l : Line) (s : State) : List HostAction :=
  match l with
  | .pack => [writeCmd (encode .pack)]
  | .unpack => [writeCmd (encode .unpack)]
  | .cmd c => [writeCmd c]
  | .ldBits bs => ldBitsActions bs
  | .ldBytes hs => ldBytesActions hs
  | .setNbits n => [.write .nbits (.half n)]
  | .setNbytes n => [.write .nbytes (.half n)]
  | .rdStatus => [.read .status]
  | .rdBits => rdBitsActions s
  | .rdBytes => rdBytesActions s
  | .unpackN c => unpackNActions c s

/-- One line performed. -/
def runLine (l : Line) (s : State) : Host.Outcome State Fault Refusal := actAll (lineActions l s) s

/-- A command sequence, "performed top to bottom" (30_encoding.md R60). -/
def runLines : List Line → State → Host.Outcome State Fault Refusal
  | [], s => .next s
  | l :: rest, s => andThen (runLine l s) (runLines rest)

/-- The host actions of a command sequence from that start state: the run it stands for (70_reset_and_hazards.md R152). -/
def linesActions : List Line → State → List HostAction
  | [], _ => []
  | l :: rest, s =>
    match runLine l s with
    | .next t => lineActions l s ++ linesActions rest t
    | .fault _ => lineActions l s
    | .refused _ => lineActions l s

end Sys2Proof.Machine
end

