-- ==== Sys2Proof/Safety.lean ====
section
/-! DEFINITION. What claims call a good state, a command that faulted, and a host that keeps its duties
(70_reset_and_hazards.md R142 to R147). -/

namespace Sys2Proof.Machine

/-- The invariant of the block: `STATUS` bits 7:2 are 0 (10_state.md R13), and both buffers list existing cells only, in
canonical form (10_state.md R16, R17). -/
def State.Inv (s : State) : Prop :=
  s.status.extractLsb' 2 6 = 0 ∧ s.bits.wf Config.bitCap = true ∧ s.bytes.wf Config.byteCap = true

/-- `STATUS` shows a fault of the most recent command (10_state.md R13). This is about one state; which RUNS have gone wrong
(70_reset_and_hazards.md R152) is `runWentWrong` of Machine/Run.lean. -/
def State.faulted (s : State) : Bool := s.faultField != 0

/-- The cell `BITS[p]` has been written since reset (70_reset_and_hazards.md R147). -/
def State.bitWritten (s : State) (p : Nat) : Bool := (s.bits.read p).isSome

/-- The cell `BYTES[i]` has been written since reset (70_reset_and_hazards.md R147). -/
def State.byteWritten (s : State) (i : Nat) : Bool := (s.bytes.read i).isSome

/-- The host's duty of 70_reset_and_hazards.md R147 for `PACK`: every cell the length covers is written. -/
def State.packOperandWritten (s : State) : Prop := ∀ p, p < s.bitLength → s.bitWritten p = true

/-- The host's duty of 70_reset_and_hazards.md R147 for `UNPACK`: `BYTES[0 .. min(A, 1+N) - 1]` are written. -/
def State.unpackOperandWritten (s : State) : Prop :=
  ∀ i, i < min s.available (1 + s.byteCount) → s.byteWritten i = true

/-- The host's duty of 70_reset_and_hazards.md R143 when it encodes a protocol response: 1 to 2000 booleans. -/
def State.inProtocolRange (s : State) : Bool :=
  decide (1 ≤ s.bitLength) && decide (s.bitLength ≤ Config.protocolMaxBits)

end Sys2Proof.Machine
end

