-- ==== Sys2Proof/WellFormed.lean ====
section
/-! DEFINITION. Which commands, host actions and lines are well formed. -/

namespace Sys2Proof

/-- Every command is well formed: a command has no register fields and no immediates (30_encoding.md R57). -/
def Instr.wf : Instr → Bool
  | .pack => true
  | .unpack => true

namespace Machine

/-- The value has the location's own width: "There is no wider or narrower access" (20_memory.md R37). -/
def CellValue.fits : CellValue → Location → Bool
  | .byte _, .cmd => true
  | .byte _, .status => true
  | .half _, .nbits => true
  | .half _, .nbytes => true
  | .bit _, .bit _ => true
  | .byte _, .byte _ => true
  | _, _ => false

/-- The accesses the block has (10_state.md R25). -/
def HostAction.wf : HostAction → Bool
  | .read l => l.inRange
  | .write l v => l.inRange && v.fits l
  | .reset => true

/-- A line names only existing cells. `RDBITS` is not judged here: the cells it reads depend on `NBITS`. -/
def Line.wf : Line → Bool
  | .pack => true
  | .unpack => true
  | .cmd _ => true
  | .ldBits bs => decide (bs.length ≤ Config.bitCap)
  | .ldBytes hs => decide (hs.length ≤ Config.byteCap)
  | .setNbits _ => true
  | .setNbytes _ => true
  | .rdStatus => true
  | .rdBits => true
  | .rdBytes => true
  | .unpackN _ => true

end Machine

end Sys2Proof
end

