-- ==== Sys2Proof/Certificates/Slice0/Obligations.lean ====
section
/-! DEFINITION. The statements about the block, for the provers. Nothing here is proved. -/

section

open Sys2Proof Sys2Proof.Machine

/-! ## Reset -/

/-- 10_state.md R23: the registers after reset; `CMD` reads 0x00 as always; no cell has a listed value, so every cell
holds its free value (the model's form of "unspecified", log 3; the clause rests on no value of it). -/
def Obligations.ResetZeroesRegistersAndLeavesCellsUnspecified : Prop :=
  State.reset.status = 0x00 ∧ State.reset.nbits = 0 ∧ State.reset.nbytes = 0 ∧
  State.reset.look .cmd = .byte 0x00 ∧
  (∀ p, p < 2040 → Memory.read State.reset.bits p = none ∧
    State.reset.readBit p = Config.unwrittenBit State.reset.epoch p) ∧
  (∀ i, i < 256 → Memory.read State.reset.bytes i = none ∧
    State.reset.readByte i = Config.unwrittenByte State.reset.epoch i)

/-- 70_reset_and_hazards.md R140, R147: the reset event gives the table of R23 from every state. That the host's
remaining actions and the values it has read stay is the model's choice (log 4). -/
def Obligations.ResetEventRestoresTheResetTable : Prop :=
  ∀ s : State, ∃ t, act .reset s = .next t ∧
    t.status = 0x00 ∧ t.nbits = 0 ∧ t.nbytes = 0 ∧
    (∀ p, Memory.read t.bits p = none) ∧ (∀ i, Memory.read t.bytes i = none) ∧
    t.epoch = s.epoch + 1 ∧ t.actions = s.actions ∧ t.reads = s.reads

/-- 70_reset_and_hazards.md R141: the outcome of a command issued straight after reset (its byte comes as the host's next
action, the model's choice, log 1). -/
def Obligations.CommandsStraightAfterReset : Prop :=
  (∃ t, step (State.reset.withFetchWord 8 0x01) = .next t ∧
    t.status = 0x00 ∧ t.nbytes = 1 ∧ t.readByte 0 = 0x00) ∧
  step (State.reset.withFetchWord 8 0x02) = .next { State.reset with status := 0x01 }

/-! ## The command byte -/

/-- 30_encoding.md R58, R59: the bytes of the opcode table, bit by bit, and the illegal bytes C3 to C8 of
95_test_vectors.md. -/
def Obligations.OpcodeTableBytesDecodeAsWritten : Prop :=
  decode 0b00000001 = .instr .pack ∧ decode 0b00000010 = .instr .unpack ∧
  (decode 0x00).toInstr? = none ∧ (decode 0x03).toInstr? = none ∧ (decode 0x05).toInstr? = none ∧
  (decode 0x81).toInstr? = none ∧ (decode 0xFF).toInstr? = none ∧ (decode 0x04).toInstr? = none

/-- Decoder and encoder agree both ways: every well-formed command is read back from its byte, and each command has one
byte only (30_encoding.md R57, R58). -/
def Obligations.CommandBytesRoundTrip : Prop :=
  (∀ i : Instr, i.wf = true → decode (encode i) = .instr i) ∧
  (∀ (c : Byte) (i : Instr), decode c = .instr i → c = encode i)

/-- The step takes the host's next action and performs it on the state it finds, one action after another as in the order of
20_memory.md R40. Both clauses are the model's choice: that the actions to come stand in State and a step performs the first of
them (log 1), and that with none to come it leaves the state as it is (log 2). -/
def Obligations.StepPerformsTheNextHostAction : Prop :=
  (∀ (s : State) (a : HostAction) (rest : List HostAction), s.actions = a :: rest →
    step s = act a { s with actions := rest }) ∧
  (∀ s : State, s.actions = [] → step s = .next s)

/-- 10_state.md R12, R19: when the host's next action writes a byte that decodes to a command, the step is that command's
meaning; and the word the model is handed is written where the step looks. That the host's actions to come stand in State is
the model's choice (log 1). -/
def Obligations.StepRunsTheDecodedCommand : Prop :=
  (∀ (s : State) (c : Byte) (i : Instr) (rest : List HostAction),
    s.actions = .write .cmd (.byte c) :: rest → i.wf = true → decode c = .instr i →
    step s = exec i { s with actions := rest }) ∧
  (∀ (s : State) (i : Instr), i.wf = true → step (s.withFetchWord 8 (encode i).toNat) = exec i s)

/-- 30_encoding.md R59, 60_exceptions.md R123: from every state the write of any other byte to `CMD` faults with `IllegalOp` and
performs nothing; and so does the step whose next action is that write (that a step takes it from the actions to come is the
model's choice, log 1). -/
def Obligations.IllegalByteFaultsAndPerformsNothing : Prop :=
  ∀ (s : State) (c : Byte), c ≠ 0x01 → c ≠ 0x02 →
    act (.write .cmd (.byte c)) s = .next { s with status := 0x03 } ∧
    ∀ rest : List HostAction, s.actions = .write .cmd (.byte c) :: rest →
      step s = .next { s with actions := rest, status := 0x03 }

/-! ## PACK -/

/-- 40_pack.md R75 with R70, R71: a `PACK` of at most 2040 booleans writes the frame of its operand at `BYTES[0]`, and
leaves alone everything but the frame's bytes, `NBYTES` and `STATUS`. -/
def Obligations.PackWritesTheFrameAndLeavesTheRest : Prop :=
  ∀ s : State, s.nbits.toNat ≤ 2040 →
    ∃ (f : List Byte) (t : State),
      pack ((List.range s.nbits.toNat).map s.readBit) = some f ∧
      f.length = 1 + (s.nbits.toNat + 7) / 8 ∧
      exec .pack s = .next t ∧
      (∀ a, a < f.length → f[a]? = some (t.readByte a)) ∧
      (∀ a, f.length ≤ a → t.readByte a = s.readByte a) ∧
      t.nbytes.toNat = f.length ∧
      t = { s with bytes := t.bytes, nbytes := t.nbytes, status := 0x00 }

/-- 30_encoding.md R53: the value of each data byte is the sum of its lanes' weights. -/
def Obligations.PackDataByteIsTheWeightedSum : Prop :=
  ∀ s : State, s.nbits.toNat ≤ 2040 →
    ∃ t, exec .pack s = .next t ∧
      ∀ k, k < (s.nbits.toNat + 7) / 8 →
        (t.readByte (1 + k)).toNat =
          ((List.range 8).map (fun i =>
            if 8 * k + i < s.nbits.toNat ∧ s.readBit (8 * k + i) = true then 2 ^ i else 0)).sum

/-- 20_memory.md R33: the boolean at position `p` is bit `p mod 8` of data byte `p div 8`, which is frame byte
`1 + p div 8`. -/
def Obligations.PackPutsPositionsLeastSignificantFirst : Prop :=
  ∀ s : State, s.nbits.toNat ≤ 2040 →
    ∃ t, exec .pack s = .next t ∧
      ∀ p, p < s.nbits.toNat → (t.readByte (1 + p / 8)).getLsbD (p % 8) = s.readBit p

/-- 20_memory.md R35: the map between positions and bits of the frame, both ways; frame byte 0, the count, holds no
position. -/
def Obligations.AddressMapIsOneToOne : Prop :=
  (∀ p, frameAddress p = 1 + p / 8 ∧ lane p = p % 8 ∧ positionOf (frameAddress p) (lane p) = p) ∧
  (∀ a i, 1 ≤ a → i < 8 → positionOf a i = 8 * (a - 1) + i ∧
    frameAddress (positionOf a i) = a ∧ lane (positionOf a i) = i) ∧
  (∀ p, frameAddress p ≠ 0)

/-- 40_pack.md R76, 30_encoding.md R55: a host that keeps to the protocol's 1 to 2000 booleans (70_reset_and_hazards.md R143)
meets no fault, and the byte count is 1 to 250; the lengths 0 and 2001 to 2040, which the block does not check for, meet none
either. -/
def Obligations.ProtocolLengthsPackWithoutFault : Prop :=
  ∀ s : State,
    (s.inProtocolRange = true → ∃ t, exec .pack s = .next t ∧ t.faulted = false ∧
      1 ≤ (t.readByte 0).toNat ∧ (t.readByte 0).toNat ≤ 250) ∧
    (s.inProtocolRange = false → s.nbits.toNat ≤ 2040 → ∃ t, exec .pack s = .next t ∧ t.faulted = false ∧
      ((t.readByte 0).toNat = 0 ∨ 251 ≤ (t.readByte 0).toNat))

/-- 40_pack.md R74: the padding bits of the last data byte are 0, and the cells at and above `L` are not read: whatever
stands in them, `PACK` gives the same. -/
def Obligations.PackZeroesPaddingAndReadsNoLeftover : Prop :=
  ∀ s : State, s.nbits.toNat ≤ 2040 →
    ∃ t, exec .pack s = .next t ∧
      (s.nbits.toNat % 8 ≠ 0 → ∀ i, s.nbits.toNat % 8 ≤ i → i < 8 →
        (t.readByte ((s.nbits.toNat + 7) / 8)).getLsbD i = false) ∧
      (∀ m : Memory Bool, (∀ p, p < s.nbits.toNat → State.readBit { s with bits := m } p = s.readBit p) →
        exec .pack { s with bits := m } = .next { t with bits := m })

/-- 40_pack.md R77: `NBYTES` and `BYTES[0]` after a successful `PACK`; after an overflow both are unchanged. -/
def Obligations.PackLengthOfTheResult : Prop :=
  ∀ s : State, ∃ t, exec .pack s = .next t ∧
    (s.nbits.toNat ≤ 2040 →
      t.status = 0x00 ∧ t.nbytes.toNat = 1 + (s.nbits.toNat + 7) / 8 ∧
      (t.readByte 0).toNat = t.nbytes.toNat - 1) ∧
    (2040 < s.nbits.toNat → t.status = 0x02 ∧ t.nbytes = s.nbytes ∧ t.bytes = s.bytes)

/-- 40_pack.md R72: `PackOverflow` exactly when `NBITS > 2040`, that is exactly when `ceil(NBITS/8) > 255`; it writes
nothing but `STATUS`. -/
def Obligations.PackOverflowsExactlyAbove2040 : Prop :=
  ∀ s : State,
    (2040 < s.nbits.toNat ↔ 255 < (s.nbits.toNat + 7) / 8) ∧
    (2040 < s.nbits.toNat → exec .pack s = .next { s with status := 0x02 }) ∧
    (s.nbits.toNat ≤ 2040 → ∃ t, exec .pack s = .next t ∧ t.status = 0x00)

/-- 40_pack.md R73: the empty sequence packs to the single byte 00, and no `BITS` cell is read. -/
def Obligations.PackOfTheEmptySequence : Prop :=
  ∀ s : State, s.nbits = 0 →
    ∃ t, exec .pack s = .next t ∧ t.readByte 0 = 0x00 ∧ t.nbytes = 1 ∧
      (∀ a, 1 ≤ a → t.readByte a = s.readByte a) ∧
      t = { s with bytes := t.bytes, nbytes := 1, status := 0x00 } ∧
      ∀ m : Memory Bool, exec .pack { s with bits := m } = .next { t with bits := m }

/-! ## UNPACK -/

/-- 41_unpack.md R86 with R80, R82: an `UNPACK` of a whole frame writes the frame's booleans from `BITS[0]` on, and leaves
alone everything but those cells, `NBITS` and `STATUS`. -/
def Obligations.UnpackWritesTheSequenceAndLeavesTheRest : Prop :=
  ∀ s : State, 1 + (s.readByte 0).toNat ≤ s.nbytes.toNat →
    ∃ (b : List Bool) (t : State),
      unpack ((List.range (1 + (s.readByte 0).toNat)).map s.readByte) = some b ∧
      b.length = 8 * (s.readByte 0).toNat ∧
      exec .unpack s = .next t ∧
      (∀ q, q < b.length → b[q]? = some (t.readBit q)) ∧
      (∀ q, b.length ≤ q → t.readBit q = s.readBit q) ∧
      t.nbits.toNat = b.length ∧
      t = { s with bits := t.bits, nbits := t.nbits, status := 0x00 }

/-- 41_unpack.md R82: `unpack(f)` on a frame of exactly `1 + N` bytes: length and every position. -/
def Obligations.UnpackFunctionReadsBytesLeastSignificantFirst : Prop :=
  ∀ (n : Byte) (d : List Byte), d.length = n.toNat →
    ∃ t, unpack (n :: d) = some t ∧ t.length = 8 * n.toNat ∧
      ∀ q, q < 8 * n.toNat → t[q]? = some (((n :: d).getD (1 + q / 8) 0).getLsbD (q % 8))

/-- 41_unpack.md R84: all `8*N` booleans come out, padding included, with whatever values they have. -/
def Obligations.UnpackKeepsEveryBitOfTheFrame : Prop :=
  ∀ s : State, 1 + (s.readByte 0).toNat ≤ s.nbytes.toNat →
    ∃ t, exec .unpack s = .next t ∧ t.status = 0x00 ∧ t.nbits.toNat = 8 * (s.readByte 0).toNat ∧
      ∀ q, q < 8 * (s.readByte 0).toNat →
        t.readBit q = (s.readByte (1 + q / 8)).getLsbD (q % 8)

/-- 41_unpack.md R81: `FrameError` in exactly two cases, and nothing but `STATUS` is written. -/
def Obligations.UnpackFaultsExactlyOnShortInput : Prop :=
  ∀ s : State,
    (s.nbytes.toNat = 0 → exec .unpack s = .next { s with status := 0x01 }) ∧
    (1 ≤ s.nbytes.toNat → s.nbytes.toNat < 1 + (s.readByte 0).toNat →
      exec .unpack s = .next { s with status := 0x01 }) ∧
    (1 ≤ s.nbytes.toNat → 1 + (s.readByte 0).toNat ≤ s.nbytes.toNat →
      ∃ t, exec .unpack s = .next t ∧ t.status = 0x00)

/-- 41_unpack.md R83: bytes after the frame are not read, not unpacked and no fault: neither what stands there nor how many
there are changes the result. -/
def Obligations.UnpackIgnoresBytesAfterTheFrame : Prop :=
  ∀ s : State, 1 + (s.readByte 0).toNat < s.nbytes.toNat →
    ∃ t, exec .unpack s = .next t ∧ t.status = 0x00 ∧
      exec .unpack { s with nbytes := BitVec.ofNat 16 (1 + (s.readByte 0).toNat) } =
        .next { t with nbytes := BitVec.ofNat 16 (1 + (s.readByte 0).toNat) } ∧
      ∀ m : Memory Byte,
        (∀ i, i ≤ (s.readByte 0).toNat → State.readByte { s with bytes := m } i = s.readByte i) →
        exec .unpack { s with bytes := m } = .next { t with bytes := m }

/-- 41_unpack.md R85: a zero byte count gives the empty result; no `BITS` cell is written. -/
def Obligations.UnpackOfAZeroByteCount : Prop :=
  ∀ s : State, 1 ≤ s.nbytes.toNat → s.readByte 0 = 0x00 →
    exec .unpack s = .next { s with nbits := 0, status := 0x00 }

/-- 41_unpack.md R88: `NBITS` after a successful `UNPACK`; after a fault it is unchanged. -/
def Obligations.UnpackLengthOfTheResult : Prop :=
  ∀ s : State, ∃ t, exec .unpack s = .next t ∧
    (1 + (s.readByte 0).toNat ≤ s.nbytes.toNat →
      t.status = 0x00 ∧ t.nbits.toNat = 8 * (s.readByte 0).toNat) ∧
    (s.nbytes.toNat < 1 + (s.readByte 0).toNat → t.status = 0x01 ∧ t.nbits = s.nbits)

/-! ## STATUS and faults -/

/-- 60_exceptions.md R120, R124: every byte written to `CMD` gives a next state, and its code in `STATUS` is the one of the
table, for the cause of the table: at most one fault, in the order of the checks. -/
def Obligations.EveryCommandReportsItsOutcome : Prop :=
  ∀ (c : Byte) (s : State), ∃ t, act (.write .cmd (.byte c)) s = .next t ∧
    (t.status = 0x00 ↔ (c = 0x01 ∧ s.nbits.toNat ≤ 2040) ∨
      (c = 0x02 ∧ 1 + (s.readByte 0).toNat ≤ s.nbytes.toNat)) ∧
    (t.status = 0x01 ↔ c = 0x02 ∧ (s.nbytes.toNat = 0 ∨ s.nbytes.toNat < 1 + (s.readByte 0).toNat)) ∧
    (t.status = 0x02 ↔ c = 0x01 ∧ 2040 < s.nbits.toNat) ∧
    (t.status = 0x03 ↔ c ≠ 0x01 ∧ c ≠ 0x02)

/-- 60_exceptions.md R125: a faulting command writes its code to `STATUS`, bits 7:2 zero, and nothing else. -/
def Obligations.FaultingCommandWritesOnlyStatus : Prop :=
  ∀ (c : Byte) (s t : State), act (.write .cmd (.byte c)) s = .next t → t.faulted = true →
    t = { s with status := t.status } ∧ t.status.extractLsb' 2 6 = 0

/-- 60_exceptions.md R126: whatever `STATUS` holds, the next command does the same and overwrites it. -/
def Obligations.StatusIsNotStickyAndNotRead : Prop :=
  ∀ (c : Byte) (s : State) (v : Byte),
    ∃ t, act (.write .cmd (.byte c)) s = .next t ∧
      act (.write .cmd (.byte c)) { s with status := v } = .next t

/-- 10_state.md R10: what a command writes and the fault it reports are a function of its operand cells and length
register alone. Two states that agree on those, and on nothing else, get the same result. -/
def Obligations.CommandResultDependsOnItsOperandsOnly : Prop :=
  (∀ s s' : State, s.nbits = s'.nbits →
    (s.nbits.toNat ≤ 2040 → ∀ p, p < s.nbits.toNat → s.readBit p = s'.readBit p) →
    ∃ t t', exec .pack s = .next t ∧ exec .pack s' = .next t' ∧ t.status = t'.status ∧
      (s.nbits.toNat ≤ 2040 → t.nbytes = t'.nbytes ∧
        ∀ a, a ≤ (s.nbits.toNat + 7) / 8 → t.readByte a = t'.readByte a)) ∧
  (∀ s s' : State, s.nbytes = s'.nbytes →
    (1 ≤ s.nbytes.toNat → s.readByte 0 = s'.readByte 0) →
    (1 + (s.readByte 0).toNat ≤ s.nbytes.toNat →
      ∀ i, i ≤ (s.readByte 0).toNat → s.readByte i = s'.readByte i) →
    ∃ t t', exec .unpack s = .next t ∧ exec .unpack s' = .next t' ∧ t.status = t'.status ∧
      (1 + (s.readByte 0).toNat ≤ s.nbytes.toNat → t.nbits = t'.nbits ∧
        ∀ q, q < 8 * (s.readByte 0).toNat → t.readBit q = t'.readBit q)) ∧
  (∀ (c : Byte) (s s' : State), c ≠ 0x01 → c ≠ 0x02 →
    ∃ t t', act (.write .cmd (.byte c)) s = .next t ∧ act (.write .cmd (.byte c)) s' = .next t' ∧
      t.status = t'.status)

/-- 20_memory.md R38: "repeating a command with no host write in between leaves the state as the first one left it". -/
def Obligations.RepeatedCommandChangesNothingMore : Prop :=
  ∀ (c : Byte) (s : State), ∃ t, act (.write .cmd (.byte c)) s = .next t ∧
    act (.write .cmd (.byte c)) t = .next t

/-- 70_reset_and_hazards.md R147, 10_state.md R26: when the host has written the cells its length covers, no free value
enters the command: the result is the same in every epoch. -/
def Obligations.WrittenOperandsUseNoFreeValue : Prop :=
  (∀ (s : State) (e : Nat), s.packOperandWritten →
    ∃ t, exec .pack s = .next t ∧ exec .pack { s with epoch := e } = .next { t with epoch := e }) ∧
  (∀ (s : State) (e : Nat), s.unpackOperandWritten →
    ∃ t, exec .unpack s = .next t ∧ exec .unpack { s with epoch := e } = .next { t with epoch := e })

/-! ## Host accesses -/

/-- 10_state.md R25, 20_memory.md R38: what a host read returns, and that the block is unchanged by it. That what the host
read is kept in `reads` is the model's choice (log 5). -/
def Obligations.HostReadReturnsTheNamedValue : Prop :=
  ∀ s : State,
    act (.read .cmd) s = .next { s with reads := s.reads ++ [⟨.cmd, .byte 0x00⟩] } ∧
    act (.read .status) s = .next { s with reads := s.reads ++ [⟨.status, .byte s.status⟩] } ∧
    act (.read .nbits) s = .next { s with reads := s.reads ++ [⟨.nbits, .half s.nbits⟩] } ∧
    act (.read .nbytes) s = .next { s with reads := s.reads ++ [⟨.nbytes, .half s.nbytes⟩] } ∧
    (∀ p, p < 2040 → act (.read (.bit p)) s =
      .next { s with reads := s.reads ++ [⟨.bit p, .bit (s.readBit p)⟩] }) ∧
    (∀ i, i < 256 → act (.read (.byte i)) s =
      .next { s with reads := s.reads ++ [⟨.byte i, .byte (s.readByte i)⟩] })

/-- 10_state.md R13, R25, 20_memory.md R30, R37: a host write changes the one register or cell it names, a write to
`STATUS` nothing. -/
def Obligations.HostWriteChangesTheNamedCellOnly : Prop :=
  ∀ s : State,
    (∀ v : Byte, act (.write .status (.byte v)) s = .next s) ∧
    (∀ n : Half, act (.write .nbits (.half n)) s = .next { s with nbits := n }) ∧
    (∀ n : Half, act (.write .nbytes (.half n)) s = .next { s with nbytes := n }) ∧
    (∀ (p : Nat) (b : Bool), p < 2040 → ∃ m, act (.write (.bit p) (.bit b)) s = .next { s with bits := m } ∧
      State.readBit { s with bits := m } p = b ∧
      ∀ q, q ≠ p → State.readBit { s with bits := m } q = s.readBit q) ∧
    (∀ (i : Nat) (v : Byte), i < 256 → ∃ m, act (.write (.byte i) (.byte v)) s = .next { s with bytes := m } ∧
      State.readByte { s with bytes := m } i = v ∧
      ∀ j, j ≠ i → State.readByte { s with bytes := m } j = s.readByte j)

/-- 20_memory.md R39: a host access to an index outside a buffer is refused. -/
def Obligations.IndexOutsideABufferIsRefused : Prop :=
  ∀ s : State,
    (∀ p, 2040 ≤ p → act (.read (.bit p)) s = .refused (.noSuchCell (.bit p)) ∧
      ∀ v, act (.write (.bit p) v) s = .refused (.noSuchCell (.bit p))) ∧
    (∀ i, 256 ≤ i → act (.read (.byte i)) s = .refused (.noSuchCell (.byte i)) ∧
      ∀ v, act (.write (.byte i) v) s = .refused (.noSuchCell (.byte i)))

/-- 10_state.md R25, 20_memory.md R37, R39: every access the block has completes, and only an access it has not is
refused (that a value of another width is refused is the model's choice, log 6). -/
def Obligations.HostActionCompletesExactlyWhenWellFormed : Prop :=
  ∀ (a : HostAction) (s : State), (∃ t, act a s = .next t) ↔ a.wf = true

/-- 20_memory.md R45: under every legal `HOST_MAP` a bus access at the address of a register or cell is the access to that
register or cell, so no rule depends on the map. -/
def Obligations.LegalHostMapReachesEveryLocation : Prop :=
  ∀ (m : HostMap) (l : Location) (s : State), m.Legal → l.inRange = true →
    busRead m (m l) s = act (.read l) s ∧ ∀ v, busWrite m (m l) v s = act (.write l v) s

/-! ## The notation's lines -/

/-- 30_encoding.md R60: `LDBITS` and `LDBYTES` write the cells and then the length, and nothing else. -/
def Obligations.LoadLinesWriteTheSequenceAndItsLength : Prop :=
  (∀ (bs : List Bool) (s : State), bs.length ≤ 2040 →
    ∃ m, runLine (.ldBits bs) s = .next { s with bits := m, nbits := BitVec.ofNat 16 bs.length } ∧
      ∀ p, State.readBit { s with bits := m } p = bs.getD p (s.readBit p)) ∧
  (∀ (hs : List Byte) (s : State), hs.length ≤ 256 →
    ∃ m, runLine (.ldBytes hs) s = .next { s with bytes := m, nbytes := BitVec.ofNat 16 hs.length } ∧
      ∀ i, State.readByte { s with bytes := m } i = hs.getD i (s.readByte i))

/-- 30_encoding.md R60: what `RDBITS` and `RDBYTES` return. That what the host read is kept in `reads` is the model's choice
(log 5). -/
def Obligations.ReadLinesReturnTheValidPart : Prop :=
  (∀ s : State, s.nbits.toNat ≤ 2040 →
    runLine .rdBits s = .next { s with
      reads := s.reads ++ ⟨.nbits, .half s.nbits⟩ ::
        (List.range s.nbits.toNat).map (fun p => ⟨.bit p, .bit (s.readBit p)⟩) }) ∧
  (∀ s : State,
    runLine .rdBytes s = .next { s with
      reads := s.reads ++ ⟨.nbytes, .half s.nbytes⟩ ::
        (List.range (min s.nbytes.toNat 256)).map (fun i => ⟨.byte i, .byte (s.readByte i)⟩) })

/-- 42_laws_and_pseudo_ops.md R92, 30_encoding.md R61: `UNPACKN c` is `UNPACK`, a read of `STATUS` and, without a fault,
truncation to `min(c, 8N)`; the cells from `8N` on keep their values (41_unpack.md R86), and after a fault nothing further
changes. That the `STATUS` read is kept in `reads` is the model's choice (log 5), and that it is the only read kept, the `NBITS`
that `min(c, NBITS)` compares with being none, is the model's inference from the expansion (log 9). -/
def Obligations.UnpackNTruncatesToTheCount : Prop :=
  ∀ (c : Half) (s : State),
    (1 + (s.readByte 0).toNat ≤ s.nbytes.toNat →
      ∃ t, runLine (.unpackN c) s = .next t ∧
        t.nbits.toNat = min c.toNat (8 * (s.readByte 0).toNat) ∧
        (∀ q, q < 8 * (s.readByte 0).toNat → t.readBit q = (s.readByte (1 + q / 8)).getLsbD (q % 8)) ∧
        (∀ q, 8 * (s.readByte 0).toNat ≤ q → t.readBit q = s.readBit q) ∧
        t = { s with
          bits := t.bits, nbits := t.nbits, status := 0x00, reads := s.reads ++ [⟨.status, .byte 0x00⟩] }) ∧
    (s.nbytes.toNat < 1 + (s.readByte 0).toNat →
      runLine (.unpackN c) s = .next { s with status := 0x01, reads := s.reads ++ [⟨.status, .byte 0x01⟩] })

/-! ## Runs -/

/-- 70_reset_and_hazards.md R152, 20_memory.md R40: as many steps as the host has actions perform the run of those actions; what
the host does after them is still to come (that the actions to come stand in State is the model's choice, log 1). -/
def Obligations.StepsPerformTheRunOfTheHostActions : Prop :=
  ∀ (as rest : List HostAction) (s : State),
    Host.Core.run Sys2Proof.core as.length { s with actions := as ++ rest } = actAll as { s with actions := rest }

/-- 70_reset_and_hazards.md R152: "what can be observed is the whole state after any action": entry `k` of the observed states is
the state in which the run's first `k + 1` actions end. -/
def Obligations.ObservedStatesAreTheStatesAfterEachAction : Prop :=
  ∀ (as : List HostAction) (s t : State) (k : Nat), k < as.length →
    ((statesAfter as s)[k]? = some t ↔ actAll (as.take (k + 1)) s = .next t)

/-- 70_reset_and_hazards.md R152: a host that only reads results sees which runs have gone wrong: from a start state that shows no
fault, as after reset, a completed run has gone wrong exactly when one of its `STATUS` reads returned a nonzero `FAULT`. The
equivalence rests on the model's reading of which `STATUS` reads come "after a command", those after any earlier command of the
run (log 10, an inference); that what the host read is kept in `reads` is its choice (log 5). -/
def Obligations.RunIsJudgedByItsStatusReads : Prop :=
  ∀ (as : List HostAction) (s t : State), s.faultField = 0 → actAll as s = .next t →
    ∃ new, t.reads = s.reads ++ new ∧
      (runWentWrong as s = true ↔
        ∃ v : Byte, (⟨.status, .byte v⟩ : ReadRecord) ∈ new ∧ v.extractLsb' 0 2 ≠ 0)

/-- 70_reset_and_hazards.md R152: a run that has gone wrong stays so, whatever the host does after it: a later command that
succeeds overwrites `STATUS` (60_exceptions.md R126) and does not undo the fault that was read. -/
def Obligations.RunGoneWrongStaysWrong : Prop :=
  ∀ (as more : List HostAction) (s : State), runWentWrong as s = true → runWentWrong (as ++ more) s = true

/-- 70_reset_and_hazards.md R145, R152: reading `STATUS` after a command shows that command's fault; a fault that is not read
before the next command is lost, and the run is judged by the next command. Before the run's first command a `STATUS` read
judges nothing (what counts as a read after a command: log 10). -/
def Obligations.RunJudgesTheCommandThatWasRead : Prop :=
  ∀ (c c' : Byte) (s : State), ∃ t u,
    act (.write .cmd (.byte c)) s = .next t ∧ act (.write .cmd (.byte c')) t = .next u ∧
    runWentWrong [.read .status] s = false ∧
    runWentWrong [.write .cmd (.byte c), .read .status] s = t.faulted ∧
    runWentWrong [.write .cmd (.byte c), .write .cmd (.byte c'), .read .status] s = u.faulted ∧
    runWentWrong [.write .cmd (.byte c), .read .status, .write .cmd (.byte c'), .read .status] s =
      (t.faulted || u.faulted)

/-! ## Laws of the frame -/

/-- 42_laws_and_pseudo_ops.md R90, on sequences: unpacking a packed sequence gives the sequence with 0 to 7 `false` entries
after it, so its first `L` entries are the sequence. -/
def Obligations.UnpackOfPackIsTheSequencePadded : Prop :=
  ∀ s : List Bool, s.length ≤ 2040 →
    ∃ f u, pack s = some f ∧ unpack f = some u ∧
      u = s ++ List.replicate (8 * ((s.length + 7) / 8) - s.length) false ∧
      u.take s.length = s

/-- 42_laws_and_pseudo_ops.md R91, on frames: packing an unpacked frame gives the frame, padding included. -/
def Obligations.PackOfUnpackIsTheFrame : Prop :=
  ∀ (n : Byte) (d : List Byte), d.length = n.toNat →
    ∃ u, unpack (n :: d) = some u ∧ pack u = some (n :: d)

/-- 42_laws_and_pseudo_ops.md R90, R92, on the block and from every state: loading a sequence, `PACK`, then `UNPACKN` with
its length, gives the sequence back; the padding cells hold 0 and `BYTES` holds the frame. -/
def Obligations.BlockReturnsThePackedSequence : Prop :=
  ∀ (bs : List Bool) (s : State), bs.length ≤ 2040 →
    ∃ f t, pack bs = some f ∧
      runLines [.ldBits bs, .pack, .unpackN (BitVec.ofNat 16 bs.length)] s = .next t ∧
      t.status = 0x00 ∧ t.nbits.toNat = bs.length ∧ t.nbytes.toNat = f.length ∧
      (∀ p, p < 8 * ((bs.length + 7) / 8) → t.readBit p = bs.getD p false) ∧
      (∀ a, a < f.length → f[a]? = some (t.readByte a))

/-- 42_laws_and_pseudo_ops.md R91, on the block and from every state: loading a frame, `UNPACK`, then `PACK`, gives the
frame back. -/
def Obligations.BlockReturnsTheUnpackedFrame : Prop :=
  ∀ (n : Byte) (d : List Byte) (s : State), d.length = n.toNat →
    ∃ t, runLines [.ldBytes (n :: d), .unpack, .pack] s = .next t ∧
      t.status = 0x00 ∧ t.nbytes.toNat = 1 + n.toNat ∧ t.nbits.toNat = 8 * n.toNat ∧
      ∀ a, a ≤ n.toNat → (n :: d)[a]? = some (t.readByte a)

/-- 30_encoding.md R56: "two sequences that differ only in trailing `false` values within the same last byte give the same
frame". -/
def Obligations.TrailingFalseWithinTheLastByteGivesTheSameFrame : Prop :=
  ∀ (bs : List Bool) (j : Nat), bs.length ≤ 2040 → bs.length + j ≤ 8 * ((bs.length + 7) / 8) →
    ∃ f, pack bs = some f ∧ pack (bs ++ List.replicate j false) = some f

/-! ## The invariant -/

/-- The invariant of Safety.lean holds after reset. -/
def Obligations.ResetStateIsLegal : Prop := State.reset.Inv

/-- Every step keeps the invariant: `STATUS` bits 7:2 stay 0 (10_state.md R13), and both buffers list existing cells only, in
canonical form (10_state.md R16, R17, 20_memory.md R39). -/
def Obligations.StepKeepsTheStateLegal : Prop :=
  ∀ s t : State, s.Inv → step s = .next t → t.Inv

end
end

