-- ==== Sys2Proof/Laws/Frame.lean ====
section
/-! SUPPORT. What the packing and unpacking functions give: lengths, one lane of a data byte, one position of a sequence. -/

namespace Sys2Proof.Machine

theorem byteCountOf_eq (L : Nat) : byteCountOf L = (L + 7) / 8 := rfl

@[simp] theorem length_packFrame (s : List Bool) : (packFrame s).length = byteCountOf s.length + 1 := by
  simp [packFrame]

@[simp] theorem length_unpackData (d : List Byte) : (unpackData d).length = 8 * d.length := by
  simp [unpackData]

/-- The byte count of an accepted sequence fits one byte (42_laws_and_pseudo_ops.md R93). -/
theorem byteCountOf_le {L : Nat} (h : L ≤ 2040) : byteCountOf L ≤ 255 := by
  rw [byteCountOf_eq]; omega

theorem packFrame_head (s : List Bool) : (packFrame s)[0]? = some (BitVec.ofNat 8 (byteCountOf s.length)) := rfl

theorem packFrame_data (s : List Bool) {k : Nat} (h : k < byteCountOf s.length) :
    (packFrame s)[1 + k]? = some (packByte s k) := by
  simp [packFrame, Nat.add_comm 1 k, h]

/-- A sum of distinct weights, one for each lane. -/
def laneSum (b : Nat → Bool) : Nat := ((List.range 8).map (fun i => if b i then 2 ^ i else 0)).sum

theorem laneSum_eq (b : Nat → Bool) :
    laneSum b = (if b 0 then 1 else 0) + (if b 1 then 2 else 0) + (if b 2 then 4 else 0) + (if b 3 then 8 else 0)
      + (if b 4 then 16 else 0) + (if b 5 then 32 else 0) + (if b 6 then 64 else 0) + (if b 7 then 128 else 0) := by
  simp [laneSum, List.range_succ, Nat.add_assoc]

theorem laneSum_lt (b : Nat → Bool) : laneSum b < 256 := by
  rw [laneSum_eq]
  repeat' split
  all_goals omega

theorem laneSum_testBit (b : Nat → Bool) {i : Nat} (h : i < 8) : (laneSum b).testBit i = b i := by
  have key : ∀ b0 b1 b2 b3 b4 b5 b6 b7 : Bool, ∀ j : Fin 8,
      ((if b0 then 1 else 0) + (if b1 then 2 else 0) + (if b2 then 4 else 0) + (if b3 then 8 else 0)
      + (if b4 then 16 else 0) + (if b5 then 32 else 0) + (if b6 then 64 else 0) + (if b7 then 128 else 0)).testBit j
        = [b0, b1, b2, b3, b4, b5, b6, b7].getD j false := by
    decide
  rw [laneSum_eq, key (b 0) (b 1) (b 2) (b 3) (b 4) (b 5) (b 6) (b 7) ⟨i, h⟩]
  interval_cases i <;> rfl

theorem packByte_eq (s : List Bool) (k : Nat) :
    packByte s k = BitVec.ofNat 8 (laneSum (fun i => s.getD (8 * k + i) false)) := by
  have e : (List.range 8).map (fun i => weight s (Config.bitsPerByte * k + i))
      = (List.range 8).map (fun i => if s.getD (8 * k + i) false then 2 ^ i else 0) := by
    refine List.map_congr_left fun i hi => ?_
    have : i < 8 := List.mem_range.1 hi
    simp only [weight, lane, show (8 * k + i) % 8 = i by omega]
  rw [packByte, e, laneSum]

/-- The value of a data byte never wraps (30_encoding.md R53). -/
theorem packByte_toNat (s : List Bool) (k : Nat) :
    (packByte s k).toNat = laneSum (fun i => s.getD (8 * k + i) false) := by
  rw [packByte_eq, BitVec.toNat_ofNat, Nat.mod_eq_of_lt (laneSum_lt _)]

/-- Lane `i` of data byte `k` holds position `8k + i`, and 0 past the end (42_laws_and_pseudo_ops.md R94). -/
theorem packByte_lane (s : List Bool) (k : Nat) {i : Nat} (h : i < 8) :
    (packByte s k).getLsbD i = s.getD (8 * k + i) false := by
  rw [BitVec.getLsbD, packByte_toNat, laneSum_testBit _ h]

theorem unpackData_getElem? (d : List Byte) {q : Nat} (h : q < 8 * d.length) :
    (unpackData d)[q]? = some ((d.getD (q / 8) 0).getLsbD (q % 8)) := by
  simp [unpackData, h, unpackBit, dataIndex, lane]

theorem unpackData_getD (d : List Byte) (q : Nat) :
    (unpackData d).getD q false = (d.getD (q / 8) 0).getLsbD (q % 8) := by
  by_cases h : q < 8 * d.length
  · rw [List.getD_eq_getElem?_getD, unpackData_getElem? d h, Option.getD_some]
  · have h1 : (unpackData d)[q]? = none := by
      rw [List.getElem?_eq_none_iff]; simp; omega
    have h2 : d[q / 8]? = none := by
      rw [List.getElem?_eq_none_iff]; omega
    simp [List.getD_eq_getElem?_getD, h1, h2]

/-- Two bytes with the same lanes are the same byte. -/
theorem byte_ext {x y : Byte} (h : ∀ i, i < 8 → x.getLsbD i = y.getLsbD i) : x = y :=
  BitVec.eq_of_getLsbD_eq h

end Sys2Proof.Machine
end

