-- ==== Sys2Proof/Laws/Memory.lean ====
section
/-! SUPPORT. What each memory operation can do: the cell it writes reads back, every other cell reads as before, and the
canonical form is kept. -/

namespace Sys2Proof.Machine.Memory

variable {α : Type}

theorem read_write (m : Memory α) (a : Nat) (v : α) (b : Nat) :
    (m.write a v).read b = if b = a then some v else m.read b := by
  induction m with
  | nil => rfl
  | cons c m ih =>
    obtain ⟨d, w⟩ := c
    simp only [write]
    split
    · rfl
    · split
      · subst_vars
        simp only [read]
        split <;> rfl
      · simp only [read, ih]
        split
        · split
          · omega
          · rfl
        · rfl

theorem read_append (m n : Memory α) (a : Nat) :
    read (m ++ n) a = (read m a).or (read n a) := by
  induction m with
  | nil => rfl
  | cons c m ih =>
    simp only [List.cons_append, read, ih]
    split <;> rfl

theorem read_filter_ge (m : Memory α) (k a : Nat) :
    read (m.filter (fun c => decide (k ≤ c.1))) a = if k ≤ a then m.read a else none := by
  induction m with
  | nil => simp [read]
  | cons c m ih =>
    rw [List.filter_cons]
    by_cases ha : k ≤ a
    · by_cases hc : a = c.1
      · simp [read, ← hc, ha]
      · by_cases hk : k ≤ c.1 <;> simp [read, ih, ha, hc, hk]
    · by_cases hk : k ≤ c.1
      · simp [read, ih, ha, hk, show a ≠ c.1 by omega]
      · simp [ih, ha, hk]

theorem read_cellsFrom (vs : List α) (a b : Nat) :
    (cellsFrom a vs).read b = if a ≤ b then vs[b - a]? else none := by
  induction vs generalizing a with
  | nil => simp [cellsFrom, read]
  | cons v vs ih =>
    simp only [cellsFrom, read, ih]
    by_cases h : b = a
    · simp [h]
    · by_cases h' : a ≤ b
      · have e : b - a = (b - (a + 1)) + 1 := by omega
        simp [h, h', show a + 1 ≤ b by omega, e]
      · simp [h, h', show ¬ a + 1 ≤ b by omega]

/-- A prefix written: its cells hold the values, the others hold what they held. -/
theorem read_writePrefix (m : Memory α) (vs : List α) (a : Nat) :
    (m.writePrefix vs).read a = if a < vs.length then vs[a]? else m.read a := by
  rw [writePrefix, read_append, read_cellsFrom, read_filter_ge]
  by_cases h : a < vs.length
  · simp [h]
  · simp [h, show vs.length ≤ a by omega]

theorem wf_iff (size : Nat) (m : Memory α) :
    m.wf size = true ↔ m.Pairwise (fun c d => c.1 < d.1) ∧ ∀ c ∈ m, c.1 < size := by
  induction m with
  | nil => simp [wf]
  | cons c m ih =>
    cases m with
    | nil => simp [wf]
    | cons d m =>
      simp only [wf, Bool.and_eq_true, decide_eq_true_eq, ih, List.pairwise_cons, List.forall_mem_cons]
      constructor
      · rintro ⟨hcd, ⟨hd, hm⟩, hds, hms⟩
        exact ⟨⟨⟨hcd, fun x hx => hcd.trans (hd x hx)⟩, hd, hm⟩, hcd.trans hds, hds, hms⟩
      · rintro ⟨⟨⟨hcd, -⟩, hd, hm⟩, -, hds, hms⟩
        exact ⟨hcd, ⟨hd, hm⟩, hds, hms⟩

theorem mem_write {m : Memory α} {a : Nat} {v : α} {c : Nat × α} (h : c ∈ m.write a v) :
    c = (a, v) ∨ c ∈ m := by
  induction m with
  | nil => simpa [write] using h
  | cons d m ih =>
    simp only [write] at h
    split at h
    · simpa using h
    · split at h
      · rcases List.mem_cons.1 h with h | h <;> simp [h]
      · rcases List.mem_cons.1 h with h | h
        · simp [h]
        · rcases ih h with h | h <;> simp [h]

theorem wf_write {size a : Nat} {m : Memory α} (v : α) (h : m.wf size = true) (ha : a < size) :
    (m.write a v).wf size = true := by
  rw [wf_iff] at h ⊢
  obtain ⟨hp, hb⟩ := h
  refine ⟨?_, fun c hc => ?_⟩
  · clear hb
    induction m with
    | nil => simp [write]
    | cons d m ih =>
      rw [List.pairwise_cons] at hp
      simp only [write]
      split
      · rename_i hlt
        refine List.pairwise_cons.2 ⟨fun x hx => ?_, List.pairwise_cons.2 hp⟩
        rcases List.mem_cons.1 hx with rfl | hx
        · exact hlt
        · exact hlt.trans (hp.1 x hx)
      · split
        · subst_vars
          exact List.pairwise_cons.2 ⟨hp.1, hp.2⟩
        · refine List.pairwise_cons.2 ⟨fun x hx => ?_, ih hp.2⟩
          rcases mem_write hx with rfl | hx
          · simp only; omega
          · exact hp.1 x hx
  · rcases mem_write hc with rfl | hc
    · exact ha
    · exact hb c hc

theorem mem_cellsFrom {vs : List α} {a : Nat} {c : Nat × α} (h : c ∈ cellsFrom a vs) :
    a ≤ c.1 ∧ c.1 < a + vs.length := by
  induction vs generalizing a with
  | nil => simp [cellsFrom] at h
  | cons v vs ih =>
    rcases List.mem_cons.1 h with rfl | h
    · simp
    · have := ih h
      simp only [List.length_cons]
      omega

theorem pairwise_cellsFrom (vs : List α) (a : Nat) :
    (cellsFrom a vs).Pairwise (fun c d => c.1 < d.1) := by
  induction vs generalizing a with
  | nil => simp [cellsFrom]
  | cons v vs ih =>
    refine List.pairwise_cons.2 ⟨fun x hx => ?_, ih _⟩
    have := mem_cellsFrom hx
    simp only
    omega

theorem wf_writePrefix {size : Nat} {m : Memory α} (vs : List α) (h : m.wf size = true)
    (hvs : vs.length ≤ size) : (m.writePrefix vs).wf size = true := by
  rw [wf_iff] at h ⊢
  obtain ⟨hp, hb⟩ := h
  refine ⟨List.pairwise_append.2 ⟨pairwise_cellsFrom vs 0, hp.filter _, fun c hc d hd => ?_⟩, fun c hc => ?_⟩
  · have := mem_cellsFrom hc
    have := (List.mem_filter.1 hd).2
    simp only [decide_eq_true_eq] at this
    omega
  · rcases List.mem_append.1 hc with hc | hc
    · have := mem_cellsFrom hc
      omega
    · exact hb c (List.mem_filter.1 hc).1

/-- Writing the same prefix again changes nothing. -/
theorem writePrefix_twice (m : Memory α) (vs : List α) :
    (m.writePrefix vs).writePrefix vs = m.writePrefix vs := by
  have e : (cellsFrom 0 vs).filter (fun c => decide (vs.length ≤ c.1)) = [] := by
    rw [List.filter_eq_nil_iff]
    intro c hc
    have := mem_cellsFrom hc
    simp only [decide_eq_true_eq]
    omega
  simp [writePrefix, List.filter_append, e, List.filter_filter]

theorem writePrefix_nil (m : Memory α) : m.writePrefix [] = m := by
  simp [writePrefix, cellsFrom]

theorem read_below {m : Memory α} {a : Nat} (h : ∀ c ∈ m, a < c.1) : m.read a = none := by
  induction m with
  | nil => rfl
  | cons c m ih =>
    simp only [List.forall_mem_cons] at h
    rw [read, if_neg (by omega), ih h.2]

/-- Equal memories are equal data: two canonical memories that read alike everywhere are the same list. -/
theorem eq_of_read_eq {size : Nat} {m n : Memory α} (hm : m.wf size = true) (hn : n.wf size = true)
    (h : ∀ a, m.read a = n.read a) : m = n := by
  replace hm := ((wf_iff size m).1 hm).1
  replace hn := ((wf_iff size n).1 hn).1
  induction m generalizing n with
  | nil =>
    cases n with
    | nil => rfl
    | cons d n => simpa [read] using h d.1
  | cons c m ih =>
    cases n with
    | nil => simpa [read] using h c.1
    | cons d n =>
      rw [List.pairwise_cons] at hm hn
      have hk : c.1 = d.1 := by
        rcases Nat.lt_trichotomy c.1 d.1 with hl | he | hl
        · have e := h c.1
          rw [read_below (m := d :: n) (by simpa using ⟨hl, fun a b hb => hl.trans (hn.1 _ hb)⟩)] at e
          simp [read] at e
        · exact he
        · have e := h d.1
          rw [read_below (m := c :: m) (by simpa using ⟨hl, fun a b hb => hl.trans (hm.1 _ hb)⟩)] at e
          simp [read] at e
      obtain ⟨c1, cv⟩ := c
      obtain ⟨d1, dv⟩ := d
      simp only at hk
      subst hk
      have hv : cv = dv := by simpa [read] using h c1
      subst hv
      have hr : ∀ a, Memory.read m a = Memory.read n a := fun a => by
        by_cases ha : a = c1
        · rw [ha, read_below hm.1, read_below hn.1]
        · simpa [read, ha] using h a
      rw [ih hr hm.2 hn.2]

end Sys2Proof.Machine.Memory
end

