-- ==== Sys2Proof/Laws/State.lean ====
section
/-! SUPPORT. One lemma per field per update of State, true by rfl. -/

namespace Sys2Proof.Machine

variable (s : State)

@[simp] theorem State.writeBit_status (p : Nat) (b : Bool) : (s.writeBit p b).status = s.status := rfl
@[simp] theorem State.writeBit_nbits (p : Nat) (b : Bool) : (s.writeBit p b).nbits = s.nbits := rfl
@[simp] theorem State.writeBit_nbytes (p : Nat) (b : Bool) : (s.writeBit p b).nbytes = s.nbytes := rfl
@[simp] theorem State.writeBit_bits (p : Nat) (b : Bool) : (s.writeBit p b).bits = s.bits.write p b := rfl
@[simp] theorem State.writeBit_bytes (p : Nat) (b : Bool) : (s.writeBit p b).bytes = s.bytes := rfl
@[simp] theorem State.writeBit_epoch (p : Nat) (b : Bool) : (s.writeBit p b).epoch = s.epoch := rfl
@[simp] theorem State.writeBit_actions (p : Nat) (b : Bool) : (s.writeBit p b).actions = s.actions := rfl
@[simp] theorem State.writeBit_reads (p : Nat) (b : Bool) : (s.writeBit p b).reads = s.reads := rfl

@[simp] theorem State.writeByte_status (i : Nat) (v : Byte) : (s.writeByte i v).status = s.status := rfl
@[simp] theorem State.writeByte_nbits (i : Nat) (v : Byte) : (s.writeByte i v).nbits = s.nbits := rfl
@[simp] theorem State.writeByte_nbytes (i : Nat) (v : Byte) : (s.writeByte i v).nbytes = s.nbytes := rfl
@[simp] theorem State.writeByte_bits (i : Nat) (v : Byte) : (s.writeByte i v).bits = s.bits := rfl
@[simp] theorem State.writeByte_bytes (i : Nat) (v : Byte) : (s.writeByte i v).bytes = s.bytes.write i v := rfl
@[simp] theorem State.writeByte_epoch (i : Nat) (v : Byte) : (s.writeByte i v).epoch = s.epoch := rfl
@[simp] theorem State.writeByte_actions (i : Nat) (v : Byte) : (s.writeByte i v).actions = s.actions := rfl
@[simp] theorem State.writeByte_reads (i : Nat) (v : Byte) : (s.writeByte i v).reads = s.reads := rfl

@[simp] theorem State.storeBits_status (t : List Bool) : (s.storeBits t).status = s.status := rfl
@[simp] theorem State.storeBits_nbits (t : List Bool) : (s.storeBits t).nbits = s.nbits := rfl
@[simp] theorem State.storeBits_nbytes (t : List Bool) : (s.storeBits t).nbytes = s.nbytes := rfl
@[simp] theorem State.storeBits_bits (t : List Bool) : (s.storeBits t).bits = s.bits.writePrefix t := rfl
@[simp] theorem State.storeBits_bytes (t : List Bool) : (s.storeBits t).bytes = s.bytes := rfl
@[simp] theorem State.storeBits_epoch (t : List Bool) : (s.storeBits t).epoch = s.epoch := rfl
@[simp] theorem State.storeBits_actions (t : List Bool) : (s.storeBits t).actions = s.actions := rfl
@[simp] theorem State.storeBits_reads (t : List Bool) : (s.storeBits t).reads = s.reads := rfl

@[simp] theorem State.storeBytes_status (f : List Byte) : (s.storeBytes f).status = s.status := rfl
@[simp] theorem State.storeBytes_nbits (f : List Byte) : (s.storeBytes f).nbits = s.nbits := rfl
@[simp] theorem State.storeBytes_nbytes (f : List Byte) : (s.storeBytes f).nbytes = s.nbytes := rfl
@[simp] theorem State.storeBytes_bits (f : List Byte) : (s.storeBytes f).bits = s.bits := rfl
@[simp] theorem State.storeBytes_bytes (f : List Byte) : (s.storeBytes f).bytes = s.bytes.writePrefix f := rfl
@[simp] theorem State.storeBytes_epoch (f : List Byte) : (s.storeBytes f).epoch = s.epoch := rfl
@[simp] theorem State.storeBytes_actions (f : List Byte) : (s.storeBytes f).actions = s.actions := rfl
@[simp] theorem State.storeBytes_reads (f : List Byte) : (s.storeBytes f).reads = s.reads := rfl

@[simp] theorem State.setNbits_status (v : Half) : (s.setNbits v).status = s.status := rfl
@[simp] theorem State.setNbits_nbits (v : Half) : (s.setNbits v).nbits = v := rfl
@[simp] theorem State.setNbits_nbytes (v : Half) : (s.setNbits v).nbytes = s.nbytes := rfl
@[simp] theorem State.setNbits_bits (v : Half) : (s.setNbits v).bits = s.bits := rfl
@[simp] theorem State.setNbits_bytes (v : Half) : (s.setNbits v).bytes = s.bytes := rfl
@[simp] theorem State.setNbits_epoch (v : Half) : (s.setNbits v).epoch = s.epoch := rfl
@[simp] theorem State.setNbits_actions (v : Half) : (s.setNbits v).actions = s.actions := rfl
@[simp] theorem State.setNbits_reads (v : Half) : (s.setNbits v).reads = s.reads := rfl

@[simp] theorem State.setNbytes_status (v : Half) : (s.setNbytes v).status = s.status := rfl
@[simp] theorem State.setNbytes_nbits (v : Half) : (s.setNbytes v).nbits = s.nbits := rfl
@[simp] theorem State.setNbytes_nbytes (v : Half) : (s.setNbytes v).nbytes = v := rfl
@[simp] theorem State.setNbytes_bits (v : Half) : (s.setNbytes v).bits = s.bits := rfl
@[simp] theorem State.setNbytes_bytes (v : Half) : (s.setNbytes v).bytes = s.bytes := rfl
@[simp] theorem State.setNbytes_epoch (v : Half) : (s.setNbytes v).epoch = s.epoch := rfl
@[simp] theorem State.setNbytes_actions (v : Half) : (s.setNbytes v).actions = s.actions := rfl
@[simp] theorem State.setNbytes_reads (v : Half) : (s.setNbytes v).reads = s.reads := rfl

@[simp] theorem State.report_status (f : FaultCode) : (s.report f).status = f.statusByte := rfl
@[simp] theorem State.report_nbits (f : FaultCode) : (s.report f).nbits = s.nbits := rfl
@[simp] theorem State.report_nbytes (f : FaultCode) : (s.report f).nbytes = s.nbytes := rfl
@[simp] theorem State.report_bits (f : FaultCode) : (s.report f).bits = s.bits := rfl
@[simp] theorem State.report_bytes (f : FaultCode) : (s.report f).bytes = s.bytes := rfl
@[simp] theorem State.report_epoch (f : FaultCode) : (s.report f).epoch = s.epoch := rfl
@[simp] theorem State.report_actions (f : FaultCode) : (s.report f).actions = s.actions := rfl
@[simp] theorem State.report_reads (f : FaultCode) : (s.report f).reads = s.reads := rfl

@[simp] theorem State.returnRead_status (r : ReadRecord) : (s.returnRead r).status = s.status := rfl
@[simp] theorem State.returnRead_nbits (r : ReadRecord) : (s.returnRead r).nbits = s.nbits := rfl
@[simp] theorem State.returnRead_nbytes (r : ReadRecord) : (s.returnRead r).nbytes = s.nbytes := rfl
@[simp] theorem State.returnRead_bits (r : ReadRecord) : (s.returnRead r).bits = s.bits := rfl
@[simp] theorem State.returnRead_bytes (r : ReadRecord) : (s.returnRead r).bytes = s.bytes := rfl
@[simp] theorem State.returnRead_epoch (r : ReadRecord) : (s.returnRead r).epoch = s.epoch := rfl
@[simp] theorem State.returnRead_actions (r : ReadRecord) : (s.returnRead r).actions = s.actions := rfl
@[simp] theorem State.returnRead_reads (r : ReadRecord) : (s.returnRead r).reads = s.reads ++ [r] := rfl

@[simp] theorem State.resetEvent_status : s.resetEvent.status = 0x00 := rfl
@[simp] theorem State.resetEvent_nbits : s.resetEvent.nbits = 0 := rfl
@[simp] theorem State.resetEvent_nbytes : s.resetEvent.nbytes = 0 := rfl
@[simp] theorem State.resetEvent_bits : s.resetEvent.bits = [] := rfl
@[simp] theorem State.resetEvent_bytes : s.resetEvent.bytes = [] := rfl
@[simp] theorem State.resetEvent_epoch : s.resetEvent.epoch = s.epoch + 1 := rfl
@[simp] theorem State.resetEvent_actions : s.resetEvent.actions = s.actions := rfl
@[simp] theorem State.resetEvent_reads : s.resetEvent.reads = s.reads := rfl

end Sys2Proof.Machine
end

