-- ==== Sys2Proof/Laws/Ops.lean ====
section
/-! SUPPORT. What one cell reads as after each operation on the state. -/

namespace Sys2Proof.Machine

variable (s : State)

/-- What a cell holds depends on its buffer and on the epoch alone. -/
theorem State.readBit_congr {s t : State} {p : Nat} (hm : t.bits.read p = s.bits.read p) (he : t.epoch = s.epoch) :
    t.readBit p = s.readBit p := by
  simp only [State.readBit, hm, he]

theorem State.readByte_congr {s t : State} {i : Nat} (hm : t.bytes.read i = s.bytes.read i) (he : t.epoch = s.epoch) :
    t.readByte i = s.readByte i := by
  simp only [State.readByte, hm, he]

theorem State.readBit_writeBit (p : Nat) (b : Bool) (q : Nat) :
    (s.writeBit p b).readBit q = if q = p then b else s.readBit q := by
  simp only [State.readBit, State.writeBit_bits, State.writeBit_epoch, Memory.read_write]
  by_cases h : q = p <;> simp [h]

theorem State.readByte_writeByte (i : Nat) (v : Byte) (j : Nat) :
    (s.writeByte i v).readByte j = if j = i then v else s.readByte j := by
  simp only [State.readByte, State.writeByte_bytes, State.writeByte_epoch, Memory.read_write]
  by_cases h : j = i <;> simp [h]

theorem State.readBit_storeBits (t : List Bool) (q : Nat) :
    (s.storeBits t).readBit q = if h : q < t.length then t[q] else s.readBit q := by
  simp only [State.readBit, State.storeBits_bits, State.storeBits_epoch, Memory.read_writePrefix]
  by_cases h : q < t.length <;> simp [h]

theorem State.readByte_storeBytes (f : List Byte) (a : Nat) :
    (s.storeBytes f).readByte a = if h : a < f.length then f[a] else s.readByte a := by
  simp only [State.readByte, State.storeBytes_bytes, State.storeBytes_epoch, Memory.read_writePrefix]
  by_cases h : a < f.length <;> simp [h]

/-- The operations that leave `BITS` alone leave what each of its cells holds alone. -/
@[simp] theorem State.readBit_writeByte (i : Nat) (v : Byte) (p : Nat) :
    (s.writeByte i v).readBit p = s.readBit p := rfl
@[simp] theorem State.readBit_storeBytes (f : List Byte) (p : Nat) : (s.storeBytes f).readBit p = s.readBit p := rfl
@[simp] theorem State.readBit_setNbits (v : Half) (p : Nat) : (s.setNbits v).readBit p = s.readBit p := rfl
@[simp] theorem State.readBit_setNbytes (v : Half) (p : Nat) : (s.setNbytes v).readBit p = s.readBit p := rfl
@[simp] theorem State.readBit_report (f : FaultCode) (p : Nat) : (s.report f).readBit p = s.readBit p := rfl
@[simp] theorem State.readBit_returnRead (r : ReadRecord) (p : Nat) : (s.returnRead r).readBit p = s.readBit p := rfl

/-- The operations that leave `BYTES` alone leave what each of its cells holds alone. -/
@[simp] theorem State.readByte_writeBit (p : Nat) (b : Bool) (i : Nat) :
    (s.writeBit p b).readByte i = s.readByte i := rfl
@[simp] theorem State.readByte_storeBits (t : List Bool) (i : Nat) : (s.storeBits t).readByte i = s.readByte i := rfl
@[simp] theorem State.readByte_setNbits (v : Half) (i : Nat) : (s.setNbits v).readByte i = s.readByte i := rfl
@[simp] theorem State.readByte_setNbytes (v : Half) (i : Nat) : (s.setNbytes v).readByte i = s.readByte i := rfl
@[simp] theorem State.readByte_report (f : FaultCode) (i : Nat) : (s.report f).readByte i = s.readByte i := rfl
@[simp] theorem State.readByte_returnRead (r : ReadRecord) (i : Nat) : (s.returnRead r).readByte i = s.readByte i := rfl

/-- A length that fits is written exactly (42_laws_and_pseudo_ops.md R93). -/
theorem toNat_half {n : Nat} (h : n < 65536) : (BitVec.ofNat 16 n).toNat = n := by
  rw [BitVec.toNat_ofNat, Nat.mod_eq_of_lt h]

theorem toNat_byte {n : Nat} (h : n < 256) : (BitVec.ofNat 8 n).toNat = n := by
  rw [BitVec.toNat_ofNat, Nat.mod_eq_of_lt h]

/-- `STATUS` bits 7:2 are 0 after every outcome (10_state.md R13). -/
theorem FaultCode.reserved_zero (f : FaultCode) : f.statusByte.extractLsb' 2 6 = 0 := by
  cases f <;> rfl

theorem FaultCode.statusByte_eq_zero {f : FaultCode} : f.statusByte = 0 ↔ f = .noFault := by
  cases f <;> decide

@[simp] theorem State.length_bitOperand : s.bitOperand.length = s.bitLength := by simp [State.bitOperand]

@[simp] theorem State.length_dataOperand : s.dataOperand.length = s.byteCount := by simp [State.dataOperand]

theorem State.byteCount_le : s.byteCount ≤ 255 := by
  have := (s.readByte 0).isLt
  simp only [State.byteCount]
  omega

theorem State.bitOperand_getD (p : Nat) :
    s.bitOperand.getD p false = (decide (p < s.bitLength) && s.readBit p) := by
  by_cases h : p < s.bitLength <;> simp [State.bitOperand, List.getD_eq_getElem?_getD, h]

theorem State.dataOperand_getD {k : Nat} (h : k < s.byteCount) : s.dataOperand.getD k 0 = s.readByte (1 + k) := by
  simp [State.dataOperand, List.getD_eq_getElem?_getD, h]

end Sys2Proof.Machine
end

