-- ==== Sys2Proof/Laws/Exec.lean ====
section
/-! SUPPORT. What a command can do, said once: it faults and writes `STATUS` only, or it writes its result. -/

namespace Sys2Proof.Machine

theorem execPack_overflow {s : State} (h : 2040 < s.bitLength) : execPack s = .next (s.report .packOverflow) :=
  if_pos h

theorem execPack_succeeds {s : State} (h : s.bitLength ≤ 2040) : execPack s = .next (s.packed.report .noFault) :=
  if_neg (Nat.not_lt.2 h)

theorem execUnpack_short {s : State} (h : s.available = 0 ∨ s.available < 1 + s.byteCount) :
    execUnpack s = .next (s.report .frameError) := by
  by_cases h0 : s.available = 0
  · exact if_pos h0
  · exact (if_neg h0).trans (if_pos (h.resolve_left h0))

theorem execUnpack_succeeds {s : State} (h : 1 + s.byteCount ≤ s.available) :
    execUnpack s = .next (s.unpacked.report .noFault) :=
  (if_neg (by omega)).trans (if_neg (by omega))

/-- What a byte written to `CMD` can do: exactly one of five things, each under its own condition. -/
theorem command_cases (c : Byte) (s : State) :
    (c = 0x01 ∧ 2040 < s.bitLength ∧ command c s = .next (s.report .packOverflow)) ∨
    (c = 0x01 ∧ s.bitLength ≤ 2040 ∧ command c s = .next (s.packed.report .noFault)) ∨
    (c = 0x02 ∧ (s.available = 0 ∨ s.available < 1 + s.byteCount) ∧ command c s = .next (s.report .frameError)) ∨
    (c = 0x02 ∧ 1 + s.byteCount ≤ s.available ∧ command c s = .next (s.unpacked.report .noFault)) ∨
    (c ≠ 0x01 ∧ c ≠ 0x02 ∧ command c s = .next (s.report .illegalOp)) := by
  have hd : ∀ c : Byte, c = 0x01 ∧ decode c = .instr .pack ∨ c = 0x02 ∧ decode c = .instr .unpack ∨
      (c ≠ 0x01 ∧ c ≠ 0x02 ∧ (decode c).toInstr? = none) := by decide
  rcases hd c with ⟨h1, hd⟩ | ⟨h1, hd⟩ | ⟨h1, h2, hd⟩
  · rcases Nat.lt_or_ge 2040 s.bitLength with h | h
    · exact .inl ⟨h1, h, by simp only [command, hd]; exact execPack_overflow h⟩
    · exact .inr (.inl ⟨h1, h, by simp only [command, hd]; exact execPack_succeeds h⟩)
  · rcases Nat.lt_or_ge s.available (1 + s.byteCount) with h | h
    · exact .inr (.inr (.inl ⟨h1, .inr h, by simp only [command, hd]; exact execUnpack_short (.inr h)⟩))
    · exact .inr (.inr (.inr (.inl ⟨h1, h, by simp only [command, hd]; exact execUnpack_succeeds h⟩)))
  · refine .inr (.inr (.inr (.inr ⟨h1, h2, ?_⟩)))
    cases e : decode c with
    | instr i => simp [e, Decoded.toInstr?] at hd
    | illegal w => simp only [command, e]; rfl

@[simp] theorem State.packed_nbytes (s : State) :
    s.packed.nbytes = BitVec.ofNat 16 (1 + byteCountOf s.bitLength) := rfl
@[simp] theorem State.packed_nbits (s : State) : s.packed.nbits = s.nbits := rfl
@[simp] theorem State.packed_bits (s : State) : s.packed.bits = s.bits := rfl
@[simp] theorem State.packed_epoch (s : State) : s.packed.epoch = s.epoch := rfl
@[simp] theorem State.packed_actions (s : State) : s.packed.actions = s.actions := rfl
@[simp] theorem State.packed_reads (s : State) : s.packed.reads = s.reads := rfl
@[simp] theorem State.packed_bytes (s : State) :
    s.packed.bytes = s.bytes.writePrefix (packFrame s.bitOperand) := rfl
@[simp] theorem State.unpacked_nbits (s : State) : s.unpacked.nbits = BitVec.ofNat 16 (8 * s.byteCount) := rfl
@[simp] theorem State.unpacked_nbytes (s : State) : s.unpacked.nbytes = s.nbytes := rfl
@[simp] theorem State.unpacked_bytes (s : State) : s.unpacked.bytes = s.bytes := rfl
@[simp] theorem State.unpacked_epoch (s : State) : s.unpacked.epoch = s.epoch := rfl
@[simp] theorem State.unpacked_actions (s : State) : s.unpacked.actions = s.actions := rfl
@[simp] theorem State.unpacked_reads (s : State) : s.unpacked.reads = s.reads := rfl
@[simp] theorem State.unpacked_bits (s : State) :
    s.unpacked.bits = s.bits.writePrefix (unpackData s.dataOperand) := rfl

@[simp] theorem State.readBit_packed (s : State) (p : Nat) : s.packed.readBit p = s.readBit p := rfl
@[simp] theorem State.readByte_unpacked (s : State) (i : Nat) : s.unpacked.readByte i = s.readByte i := rfl

/-- The count of the frame `PACK` writes. -/
theorem State.readByte_packed_zero (s : State) :
    s.packed.readByte 0 = BitVec.ofNat 8 (byteCountOf s.bitLength) := by
  rw [State.packed, State.readByte_setNbytes, State.readByte_storeBytes]
  simp [packFrame]

/-- A data byte of the frame `PACK` writes. -/
theorem State.readByte_packed_data (s : State) {k : Nat} (h : k < byteCountOf s.bitLength) :
    s.packed.readByte (1 + k) = packByte s.bitOperand k := by
  rw [State.packed, State.readByte_setNbytes, State.readByte_storeBytes, dif_pos (by simp; omega)]
  have := packFrame_data s.bitOperand (k := k) (by simpa using h)
  exact (List.getElem?_eq_some_iff.1 this).2

/-- Beyond the frame `PACK` leaves the bytes alone. -/
theorem State.readByte_packed_above (s : State) {a : Nat} (h : 1 + byteCountOf s.bitLength ≤ a) :
    s.packed.readByte a = s.readByte a := by
  rw [State.packed, State.readByte_setNbytes, State.readByte_storeBytes, dif_neg (by simp; omega)]

/-- One position of the sequence `UNPACK` writes. -/
theorem State.readBit_unpacked (s : State) {q : Nat} (h : q < 8 * s.byteCount) :
    s.unpacked.readBit q = (s.readByte (1 + q / 8)).getLsbD (q % 8) := by
  have hl : q < (unpackData s.dataOperand).length := by simpa using h
  rw [State.unpacked, State.readBit_setNbits, State.readBit_storeBits, dif_pos hl]
  have := unpackData_getElem? s.dataOperand (q := q) (by simpa using h)
  rw [(List.getElem?_eq_some_iff.1 this).2, State.dataOperand_getD s (by omega)]

/-- Beyond the sequence `UNPACK` leaves the cells alone. -/
theorem State.readBit_unpacked_above (s : State) {q : Nat} (h : 8 * s.byteCount ≤ q) :
    s.unpacked.readBit q = s.readBit q := by
  rw [State.unpacked, State.readBit_setNbits, State.readBit_storeBits, dif_neg (by simp; omega)]

end Sys2Proof.Machine
end

