-- ==== Sys2Proof/Laws/HostAccess.lean ====
section
/-! SUPPORT. What each host action and each sequence of host actions can do. -/

namespace Sys2Proof.Machine

theorem Location.inRange_bit {p : Nat} : (Location.bit p).inRange = true ↔ p < 2040 := decide_eq_true_iff

theorem Location.inRange_byte {i : Nat} : (Location.byte i).inRange = true ↔ i < 256 := decide_eq_true_iff

theorem act_read {l : Location} (h : l.inRange = true) (s : State) :
    act (.read l) s = .next (s.returnRead (s.readOf l)) := if_pos h

theorem act_writeCmd (c : Byte) (s : State) : act (.write .cmd (.byte c)) s = command c s := rfl

theorem act_writeNbits (n : Half) (s : State) : act (.write .nbits (.half n)) s = .next (s.setNbits n) := rfl

theorem act_writeNbytes (n : Half) (s : State) : act (.write .nbytes (.half n)) s = .next (s.setNbytes n) := rfl

theorem act_writeBit {p : Nat} (h : p < 2040) (b : Bool) (s : State) :
    act (.write (.bit p) (.bit b)) s = .next (s.writeBit p b) := if_pos (decide_eq_true h)

theorem act_writeByte {i : Nat} (h : i < 256) (v : Byte) (s : State) :
    act (.write (.byte i) (.byte v)) s = .next (s.writeByte i v) := if_pos (decide_eq_true h)

theorem act_noSuchCell {l : Location} (h : l.inRange = false) (s : State) :
    act (.read l) s = .refused (.noSuchCell l) ∧ ∀ v, act (.write l v) s = .refused (.noSuchCell l) :=
  ⟨if_neg (by simp [h]), fun _ => if_neg (by simp [h])⟩

theorem actAll_append (xs ys : List HostAction) (s : State) :
    actAll (xs ++ ys) s = andThen (actAll xs s) (actAll ys) := by
  induction xs generalizing s with
  | nil => rfl
  | cons a xs ih =>
    simp only [List.cons_append, actAll]
    cases act a s with
    | next t => exact ih t
    | fault r => rfl
    | refused r => rfl

/-- Reads one after another: the values return in their order and nothing else happens. -/
theorem actAll_reads (ls : List Location) (s : State) (h : ∀ l ∈ ls, l.inRange = true) :
    actAll (ls.map .read) s = .next { s with reads := s.reads ++ ls.map s.readOf } := by
  induction ls generalizing s with
  | nil => simp [actAll]
  | cons l ls ih =>
    simp only [List.map_cons, actAll, act_read (h l (by simp))]
    have e : (s.returnRead (s.readOf l)).readOf = s.readOf := by
      funext l'
      cases l' <;> rfl
    exact (ih _ (fun x hx => h x (by simp [hx]))).trans (by rw [e]; simp [State.returnRead])

/-- Consecutive `BITS` cells written: those cells hold the values, and no other cell or register changes. -/
theorem actAll_bitWrites (bs : List Bool) (p : Nat) (s : State) (h : p + bs.length ≤ 2040) :
    ∃ m, actAll (bitWrites p bs) s = .next { s with bits := m } ∧
      ∀ q, Memory.read m q = if p ≤ q ∧ q < p + bs.length then bs[q - p]? else Memory.read s.bits q := by
  induction bs generalizing p s with
  | nil => exact ⟨s.bits, rfl, fun q => by simp⟩
  | cons b bs ih =>
    simp only [List.length_cons] at h
    obtain ⟨m, hm, hr⟩ := ih (p + 1) (s.writeBit p b) (by omega)
    refine ⟨m, ?_, fun q => ?_⟩
    · simp only [bitWrites, actAll, act_writeBit (show p < 2040 by omega)]
      exact hm
    · rw [hr, State.writeBit_bits, Memory.read_write]
      simp only [List.length_cons]
      by_cases h1 : q = p
      · simp [h1]
      · by_cases h2 : p + 1 ≤ q ∧ q < p + 1 + bs.length
        · have e : q - p = (q - (p + 1)) + 1 := by omega
          rw [if_pos h2, if_pos (by omega), e, List.getElem?_cons_succ]
        · rw [if_neg h2, if_neg h1, if_neg (by omega)]

/-- Consecutive `BYTES` cells written: those cells hold the values, and no other cell or register changes. -/
theorem actAll_byteWrites (vs : List Byte) (i : Nat) (s : State) (h : i + vs.length ≤ 256) :
    ∃ m, actAll (byteWrites i vs) s = .next { s with bytes := m } ∧
      ∀ a, Memory.read m a = if i ≤ a ∧ a < i + vs.length then vs[a - i]? else Memory.read s.bytes a := by
  induction vs generalizing i s with
  | nil => exact ⟨s.bytes, rfl, fun a => by simp⟩
  | cons v vs ih =>
    simp only [List.length_cons] at h
    obtain ⟨m, hm, hr⟩ := ih (i + 1) (s.writeByte i v) (by omega)
    refine ⟨m, ?_, fun a => ?_⟩
    · simp only [byteWrites, actAll, act_writeByte (show i < 256 by omega)]
      exact hm
    · rw [hr, State.writeByte_bytes, Memory.read_write]
      simp only [List.length_cons]
      by_cases h1 : a = i
      · simp [h1]
      · by_cases h2 : i + 1 ≤ a ∧ a < i + 1 + vs.length
        · have e : a - i = (a - (i + 1)) + 1 := by omega
          rw [if_pos h2, if_pos (by omega), e, List.getElem?_cons_succ]
        · rw [if_neg h2, if_neg h1, if_neg (by omega)]

theorem step_of_actions {s : State} {a : HostAction} {rest : List HostAction} (h : s.actions = a :: rest) :
    step s = act a { s with actions := rest } := by
  simp only [step, State.nextAction?, h]

end Sys2Proof.Machine
end

