-- ==== Sys2Proof/Laws/PerInstr.lean ====
section
/-! SUPPORT. Facts about every command as syntax, one lemma per constructor. -/

namespace Sys2Proof.Laws.Encoding

/-- The command is well formed, its byte has the reserved field zero, and the decoder reads the command back. -/
def Statement (i : Instr) : Prop := i.wf = true ∧ rsvField (encode i) = 0 ∧ decode (encode i) = .instr i

theorem pack : Statement .pack := ⟨rfl, by decide, by decide⟩

theorem unpack : Statement .unpack := ⟨rfl, by decide, by decide⟩

end Sys2Proof.Laws.Encoding
end

