-- ==== Sys2Proof/Laws/Run.lean ====
section
/-! SUPPORT. What one action, and a run of actions, can do to `STATUS`, to the host's reads and to the actions still to come. -/

namespace Sys2Proof.Machine

/-- What an action adds to the host's reads. -/
def HostAction.readAt (s : State) : HostAction → List ReadRecord
  | .read l => [s.readOf l]
  | .write _ _ => []
  | .reset => []

/-- What an action that completes can do: a command's write does what the command does, every other action leaves `STATUS` as it
is or, as a reset event does, zero. -/
theorem act_cases {a : HostAction} {s t : State} (h : act a s = .next t) :
    (∃ c, a = .write .cmd (.byte c) ∧ command c s = .next t) ∨
    (a.isCommand = false ∧ (t.status = s.status ∨ t.status = 0x00) ∧ t.reads = s.reads ++ a.readAt s) := by
  cases a with
  | reset =>
    cases h
    exact .inr ⟨rfl, .inr rfl, (List.append_nil _).symm⟩
  | read l =>
    simp only [act, hostRead] at h
    split at h <;> cases h
    exact .inr ⟨rfl, .inl rfl, rfl⟩
  | write l v =>
    simp only [act, hostWrite] at h
    split at h
    · cases l <;> cases v <;> simp only [hostStore, reduceCtorEq] at h
      · exact .inl ⟨_, rfl, h⟩
      all_goals
        cases h
        exact .inr ⟨rfl, .inl rfl, (List.append_nil _).symm⟩
    · cases h

/-- A command adds nothing to the host's reads. -/
theorem command_reads {c : Byte} {s t : State} (h : command c s = .next t) : t.reads = s.reads := by
  rcases command_cases c s with ⟨_, _, e⟩ | ⟨_, _, e⟩ | ⟨_, _, e⟩ | ⟨_, _, e⟩ | ⟨_, _, e⟩ <;> rw [e] at h <;> cases h <;> rfl

theorem act_reads {a : HostAction} {s t : State} (h : act a s = .next t) : t.reads = s.reads ++ a.readAt s := by
  rcases act_cases h with ⟨c, rfl, hc⟩ | ⟨-, -, hr⟩
  · exact (command_reads hc).trans (List.append_nil _).symm
  · exact hr

/-- An outcome with the host's actions to come set in its next state. -/
def withActionsTo (as : List HostAction) : Host.Outcome State Fault Refusal → Host.Outcome State Fault Refusal
  | .next t => .next { t with actions := as }
  | .fault r => .fault r
  | .refused r => .refused r

/-- No command depends on the host's actions to come, or changes them. -/
theorem command_withActions (c : Byte) (as : List HostAction) (s : State) :
    command c { s with actions := as } = withActionsTo as (command c s) := by
  simp only [command]
  cases decode c with
  | illegal w => rfl
  | instr i =>
    cases i with
    | pack =>
      simp only [exec, execPack]
      rw [show State.bitLength { s with actions := as } = s.bitLength from rfl]
      split <;> rfl
    | unpack =>
      simp only [exec, execUnpack]
      rw [show State.available { s with actions := as } = s.available from rfl,
        show State.byteCount { s with actions := as } = s.byteCount from rfl]
      split
      · rfl
      · split <;> rfl

/-- No action depends on the host's actions to come after it, or changes them. -/
theorem act_withActions (a : HostAction) (as : List HostAction) (s : State) :
    act a { s with actions := as } = withActionsTo as (act a s) := by
  cases a with
  | reset => rfl
  | read l =>
    simp only [act, hostRead]
    split
    · cases l <;> rfl
    · rfl
  | write l v =>
    simp only [act, hostWrite]
    split
    · cases l <;> cases v <;> first | exact command_withActions _ as s | rfl
    · rfl

/-- A run of any machine takes one step and goes on, or stops where the step stops. -/
theorem run_next (M : Host.Core) {k : Nat} {s t : M.State} (h : M.step s = .next t) : M.run (k + 1) s = M.run k t := by
  rw [Host.Core.run.eq_def]
  simp only [h]

theorem run_refused (M : Host.Core) {k : Nat} {s : M.State} {r : M.Refusal} (h : M.step s = .refused r) :
    M.run (k + 1) s = .refused r := by
  rw [Host.Core.run.eq_def]
  simp only [h]

theorem core_run_next {k : Nat} {s t : State} (h : step s = .next t) :
    Sys2Proof.core.run (k + 1) s = Sys2Proof.core.run k t :=
  run_next Sys2Proof.core h

theorem core_run_refused {k : Nat} {s : State} {r : Refusal} (h : step s = .refused r) :
    Sys2Proof.core.run (k + 1) s = .refused r :=
  run_refused Sys2Proof.core h

theorem actAll_singleton (a : HostAction) (s : State) : actAll [a] s = act a s := by
  simp only [actAll, andThen]
  cases act a s <;> rfl

/-- The status reads of a run continued: those of the first part, then those of the second where the first completes. -/
theorem statusReads_append (b : Bool) (as more : List HostAction) (s : State) :
    statusReads b (as ++ more) s = statusReads b as s ++
      (match actAll as s with
        | .next t => statusReads (b || as.any HostAction.isCommand) more t
        | .fault _ => []
        | .refused _ => []) := by
  induction as generalizing b s with
  | nil => simp [statusReads, actAll]
  | cons a as ih =>
    simp only [List.cons_append, statusReads, actAll, List.any_cons]
    cases act a s with
    | next t => simp only [andThen, ih, List.append_assoc, Bool.or_assoc]
    | fault r => rfl
    | refused r => rfl

/-- A command sequence is the run of its host actions. -/
theorem runLines_eq_actAll (ls : List Line) (s : State) : runLines ls s = actAll (linesActions ls s) s := by
  induction ls generalizing s with
  | nil => rfl
  | cons l ls ih =>
    simp only [runLines, linesActions]
    cases e : runLine l s with
    | next t => rw [actAll_append, ← runLine, e]; exact ih t
    | fault r => exact e.symm
    | refused r => exact e.symm

end Sys2Proof.Machine
end

