-- ==== Sys2Proof/Laws/Safety.lean ====
section
/-! SUPPORT. The operations that a step is made of keep the invariant of Safety.lean. -/

namespace Sys2Proof.Machine

theorem State.Inv.report {s : State} (h : s.Inv) (f : FaultCode) : (s.report f).Inv :=
  ⟨f.reserved_zero, h.2.1, h.2.2⟩

theorem State.Inv.writeBit {s : State} (h : s.Inv) {p : Nat} (hp : p < 2040) (b : Bool) : (s.writeBit p b).Inv :=
  ⟨h.1, Memory.wf_write b h.2.1 hp, h.2.2⟩

theorem State.Inv.writeByte {s : State} (h : s.Inv) {i : Nat} (hi : i < 256) (v : Byte) : (s.writeByte i v).Inv :=
  ⟨h.1, h.2.1, Memory.wf_write v h.2.2 hi⟩

/-- The frame of an accepted sequence fits `BYTES` (42_laws_and_pseudo_ops.md R93). -/
theorem State.Inv.packed {s : State} (h : s.Inv) (hL : s.bitLength ≤ 2040) : s.packed.Inv :=
  ⟨h.1, h.2.1, Memory.wf_writePrefix _ h.2.2 (by
    have := byteCountOf_le hL
    show _ ≤ 256
    simp only [length_packFrame, State.length_bitOperand]
    omega)⟩

/-- Every result of `UNPACK` fits `BITS` (41_unpack.md R80). -/
theorem State.Inv.unpacked {s : State} (h : s.Inv) : s.unpacked.Inv :=
  ⟨h.1, Memory.wf_writePrefix _ h.2.1 (by
    have := s.byteCount_le
    show _ ≤ 2040
    simp only [length_unpackData, State.length_dataOperand]
    omega), h.2.2⟩

end Sys2Proof.Machine
end

