-- ==== Sys2Proof/Tests/Slice0.lean ====
section
/-! SUPPORT. Tests on fixed values, their expected results from 95_test_vectors.md, and a witness for the hypotheses of
every statement that has some. -/

namespace Sys2Proof.Tests

open Sys2Proof.Machine

/-- The state an outcome goes on in. -/
def stateOf? : Host.Outcome State Fault Refusal → Option State
  | .next t => some t
  | .fault _ => none
  | .refused _ => none

/-- A state whose first cells are written: bits and bytes in order, and the two lengths. -/
def loaded (bs : List Bool) (nbits : Half) (hs : List Byte) (nbytes : Half) : State :=
  { State.reset with bits := Memory.cellsFrom 0 bs, nbits := nbits, bytes := Memory.cellsFrom 0 hs, nbytes := nbytes }

/-- A state whose host's next action is `a`. -/
def facing (a : HostAction) : State := { State.reset with actions := [a] }

/-! ## Decoding (95_test_vectors.md 2.3) -/

theorem test_decode_pack : decode 0b00000001 = .instr .pack := by decide
theorem test_decode_unpack : decode 0b00000010 = .instr .unpack := by decide
theorem test_decode_illegal_op : decode 0x00 = .illegal (.reservedOp 0b00) ∧ decode 0x03 = .illegal (.reservedOp 0b11) := by
  decide
theorem test_decode_reserved_bits : (decode 0x05).toInstr? = none ∧ (decode 0x81).toInstr? = none ∧
    (decode 0xFF).toInstr? = none ∧ (decode 0x04).toInstr? = none := by decide
theorem test_decode_table_words : decodeTableWord 8 1 = some .pack ∧ decodeTableWord 8 2 = some .unpack ∧
    decodeTableWord 8 3 = none := by decide
theorem test_fetch_runs_first : stateOf? (step (State.reset.withFetchWord 8 1)) = stateOf? (exec .pack State.reset) := by
  decide

/-! ## Well-formedness: for each check, a term it refuses -/

theorem smoke_bit_index : (HostAction.read (.bit 2040)).wf = false := by decide
theorem smoke_byte_index : (HostAction.write (.byte 256) (.byte 0)).wf = false := by decide
theorem smoke_width : (HostAction.write .nbits (.byte 0)).wf = false := by decide
theorem smoke_ldBits : (Line.ldBits (List.replicate 2041 true)).wf = false := by
  simp only [Line.wf, List.length_replicate]
  decide
theorem smoke_ldBytes : (Line.ldBytes (List.replicate 257 0)).wf = false := by
  simp only [Line.wf, List.length_replicate]
  decide
theorem smoke_buffer_order : Memory.wf 256 [(1, (0 : Byte)), (1, 0)] = false := by decide
theorem smoke_buffer_bound : Memory.wf 256 [(256, (0 : Byte))] = false := by decide

/-! ## One command on a small state -/

/-- P10 with leftovers above the sequence as in P21: `1100101000111` packs to `02 53 1C`. -/
theorem test_pack : (stateOf? (exec .pack (loaded
      [true, true, false, false, true, false, true, false, false, false, true, true, true, true, true, true] 13 [] 0))).map
      (fun t => (t.bytes, t.nbytes, t.status)) =
    some ([(0, 0x02), (1, 0x53), (2, 0x1C)], 3, 0x00) := by decide

/-- PF2: 2048 booleans would need a byte count of 256. -/
theorem test_pack_overflow : (stateOf? (exec .pack (loaded [] 2048 [0xAA] 1))).map
      (fun t => (t.bytes, t.nbytes, t.status)) = some ([(0, 0xAA)], 1, 0x02) := by decide

/-- U8 with the byte of U9: one byte after the frame is ignored, nonzero padding comes out. -/
theorem test_unpack : (stateOf? (exec .unpack (loaded [] 0 [0x01, 0xE5, 0xAA] 3))).map
      (fun t => (t.bits.map (·.2), t.nbits, t.status)) =
    some ([true, false, true, false, false, true, true, true], 8, 0x00) := by decide

/-- UF3: one byte short. -/
theorem test_unpack_short : (stateOf? (exec .unpack (loaded [] 7 [0x02, 0xFF] 2))).map
      (fun t => (t.bits, t.nbits, t.status)) = some ([], 7, 0x01) := by decide

/-- RT10: no truncation after a fault. -/
theorem test_unpackN_after_fault : (stateOf? (runLine (.unpackN 3) (loaded [] 7 [0x02, 0xFF] 2))).map
      (fun t => (t.nbits, t.status)) = some (7, 0x01) := by decide

/-- C9: an illegal byte, its fault read, then a good `PACK`: the last `STATUS` shows no fault, and the run has gone wrong. -/
theorem test_run_gone_wrong :
    runWentWrong (linesActions [.cmd 0x00, .rdStatus, .pack, .rdStatus] State.reset) State.reset = true ∧
    (stateOf? (runLines [.cmd 0x00, .rdStatus, .pack, .rdStatus] State.reset)).map (fun t => t.faulted) = some false := by
  decide

/-! ## Witnesses: the hypotheses of the statements hold of something -/

theorem witness_cells_in_range : (2039 < 2040 ∧ 255 < 256) ∧ (Location.bit 2039).inRange = true ∧
    (Location.byte 255).inRange = true := by decide

theorem witness_CommandBytesRoundTrip : Instr.pack.wf = true ∧ Instr.unpack.wf = true ∧ decode 0x01 = .instr .pack ∧
    decode 0x02 = .instr .unpack := by decide

theorem witness_StepPerformsTheNextHostAction : (facing .reset).actions = .reset :: [] ∧ State.reset.actions = [] := by decide

theorem witness_StepRunsTheDecodedCommand :
    (facing (.write .cmd (.byte 0x01))).actions = .write .cmd (.byte 0x01) :: [] ∧ Instr.pack.wf = true ∧
    decode 0x01 = .instr .pack ∧
    (facing (.write .cmd (.byte 0x02))).actions = .write .cmd (.byte 0x02) :: [] ∧ Instr.unpack.wf = true ∧
    decode 0x02 = .instr .unpack := by decide

theorem witness_IllegalByteFaultsAndPerformsNothing :
    (0x00 : Byte) ≠ 0x01 ∧ (0x00 : Byte) ≠ 0x02 ∧
      (facing (.write .cmd (.byte 0x00))).actions = .write .cmd (.byte 0x00) :: [] ∧
    (0xFF : Byte) ≠ 0x01 ∧ (0xFF : Byte) ≠ 0x02 ∧
      (facing (.write .cmd (.byte 0xFF))).actions = .write .cmd (.byte 0xFF) :: [] := by decide

/-- The lengths where the clauses about `PACK` meet: 0, 2040 and 2041. -/
theorem witness_pack_lengths : (loaded [] 0 [] 0).nbits = 0 ∧ (loaded [] 0 [] 0).nbits.toNat ≤ 2040 ∧
    (loaded [] 2040 [] 0).nbits.toNat ≤ 2040 ∧ 2039 < (loaded [] 2040 [] 0).nbits.toNat ∧
    2040 < (loaded [] 2041 [] 0).nbits.toNat ∧
    254 < ((loaded [] 2040 [] 0).nbits.toNat + 7) / 8 := by decide

theorem witness_PackWritesTheFrameAndLeavesTheRest : (loaded [true, false, true] 3 [] 0).nbits.toNat ≤ 2040 := by decide

theorem witness_PackDataByteIsTheWeightedSum : (loaded [true, false, true] 3 [] 0).nbits.toNat ≤ 2040 ∧
    0 < ((loaded [true, false, true] 3 [] 0).nbits.toNat + 7) / 8 := by decide

theorem witness_PackPutsPositionsLeastSignificantFirst : (loaded [true, false, true] 3 [] 0).nbits.toNat ≤ 2040 ∧
    2 < (loaded [true, false, true] 3 [] 0).nbits.toNat := by decide

theorem witness_PackZeroesPaddingAndReadsNoLeftover : (loaded [true, false, true] 3 [] 0).nbits.toNat ≤ 2040 ∧
    (loaded [true, false, true] 3 [] 0).nbits.toNat % 8 ≠ 0 ∧ (loaded [true, false, true] 3 [] 0).nbits.toNat % 8 ≤ 3 ∧
    (∀ p, p < (loaded [true, false, true] 3 [] 0).nbits.toNat →
      State.readBit { loaded [true, false, true] 3 [] 0 with bits := Memory.cellsFrom 0 [true, false, true, true] } p =
        (loaded [true, false, true] 3 [] 0).readBit p) := by decide

theorem witness_ProtocolLengthsPackWithoutFault : (loaded [] 1 [] 0).inProtocolRange = true ∧
    (loaded [] 2000 [] 0).inProtocolRange = true ∧
    (loaded [] 0 [] 0).inProtocolRange = false ∧ (loaded [] 0 [] 0).nbits.toNat ≤ 2040 ∧
    (loaded [] 2001 [] 0).inProtocolRange = false ∧ (loaded [] 2001 [] 0).nbits.toNat ≤ 2040 := by decide

theorem witness_AddressMapIsOneToOne : 1 ≤ 1 ∧ 0 < 8 ∧ 1 ≤ 255 ∧ 7 < 8 := by decide

/-- A whole frame, exactly available, and the longest one; position 8 is the first that the frame of one byte leaves alone, 2039
the last that the longest one writes. -/
theorem witness_unpack_whole_frame :
    1 + ((loaded [] 0 [0x01, 0x05] 2).readByte 0).toNat ≤ (loaded [] 0 [0x01, 0x05] 2).nbytes.toNat ∧
    8 * ((loaded [] 0 [0x01, 0x05] 2).readByte 0).toNat ≤ 8 ∧
    1 + ((loaded [] 0 [0xFF] 256).readByte 0).toNat ≤ (loaded [] 0 [0xFF] 256).nbytes.toNat ∧
    2039 < 8 * ((loaded [] 0 [0xFF] 256).readByte 0).toNat := by decide

theorem witness_UnpackFunctionReadsBytesLeastSignificantFirst : ([0x05] : List Byte).length = (0x01 : Byte).toNat ∧
    7 < 8 * (0x01 : Byte).toNat ∧ ([] : List Byte).length = (0x00 : Byte).toNat := by decide

theorem witness_UnpackFaultsExactlyOnShortInput :
    (loaded [] 0 [0x00] 0).nbytes.toNat = 0 ∧
    (1 ≤ (loaded [] 0 [0xFF] 255).nbytes.toNat ∧
      (loaded [] 0 [0xFF] 255).nbytes.toNat < 1 + ((loaded [] 0 [0xFF] 255).readByte 0).toNat) ∧
    (1 ≤ (loaded [] 0 [0x00] 1).nbytes.toNat ∧
      1 + ((loaded [] 0 [0x00] 1).readByte 0).toNat ≤ (loaded [] 0 [0x00] 1).nbytes.toNat) := by decide

theorem witness_UnpackIgnoresBytesAfterTheFrame :
    1 + ((loaded [] 0 [0x01, 0x05, 0xAA] 3).readByte 0).toNat < (loaded [] 0 [0x01, 0x05, 0xAA] 3).nbytes.toNat ∧
    (∀ i, i ≤ ((loaded [] 0 [0x01, 0x05, 0xAA] 3).readByte 0).toNat →
      State.readByte { loaded [] 0 [0x01, 0x05, 0xAA] 3 with bytes := Memory.cellsFrom 0 [0x01, 0x05, 0xBB] } i =
        (loaded [] 0 [0x01, 0x05, 0xAA] 3).readByte i) := by
  refine ⟨by decide, fun i hi => ?_⟩
  have h : i ≤ 1 := hi
  interval_cases i <;> rfl

theorem witness_UnpackOfAZeroByteCount : 1 ≤ (loaded [] 0 [0x00] 1).nbytes.toNat ∧
    (loaded [] 0 [0x00] 1).readByte 0 = 0x00 := by decide

theorem witness_unpack_too_short :
    (loaded [] 0 [0x01] 1).nbytes.toNat < 1 + ((loaded [] 0 [0x01] 1).readByte 0).toNat := by decide

theorem witness_FaultingCommandWritesOnlyStatus :
    act (.write .cmd (.byte 0x00)) State.reset = .next { State.reset with status := 0x03 } ∧
    State.faulted { State.reset with status := 0x03 } = true := ⟨rfl, rfl⟩

/-- Two different states that agree on the operands of `PACK`, and two that agree on those of `UNPACK`. -/
theorem witness_CommandResultDependsOnItsOperandsOnly :
    ((loaded [true] 1 [0xAA] 0) ≠ { loaded [true, true] 1 [] 0 with status := 0x02 } ∧
      (loaded [true] 1 [0xAA] 0).nbits = (loaded [true, true] 1 [] 0).nbits ∧
      ∀ p, p < (loaded [true] 1 [0xAA] 0).nbits.toNat →
        (loaded [true] 1 [0xAA] 0).readBit p = State.readBit { loaded [true, true] 1 [] 0 with status := 0x02 } p) ∧
    ((loaded [] 0 [0x01, 0x05] 2) ≠ { loaded [true] 0 [0x01, 0x05, 0xAA] 2 with status := 0x02 } ∧
      (loaded [] 0 [0x01, 0x05] 2).nbytes = (loaded [true] 0 [0x01, 0x05, 0xAA] 2).nbytes ∧
      1 + ((loaded [] 0 [0x01, 0x05] 2).readByte 0).toNat ≤ (loaded [] 0 [0x01, 0x05] 2).nbytes.toNat ∧
      ∀ i, i ≤ ((loaded [] 0 [0x01, 0x05] 2).readByte 0).toNat →
        (loaded [] 0 [0x01, 0x05] 2).readByte i =
          State.readByte { loaded [true] 0 [0x01, 0x05, 0xAA] 2 with status := 0x02 } i) := by
  refine ⟨⟨by decide, rfl, by decide⟩, by decide, rfl, by decide, fun i hi => ?_⟩
  have h : i ≤ 1 := hi
  interval_cases i <;> rfl

theorem witness_WrittenOperandsUseNoFreeValue :
    (loaded [true, false, true] 3 [] 0).packOperandWritten ∧ (loaded [] 0 [0x01, 0x05] 2).unpackOperandWritten := by
  refine ⟨fun p hp => ?_, fun i hi => ?_⟩
  · have h : p < 3 := hp
    interval_cases p <;> rfl
  · have h : i < 2 := hi
    interval_cases i <;> rfl

theorem witness_IndexOutsideABufferIsRefused : 2040 ≤ 2040 ∧ 256 ≤ 256 ∧ (Location.bit 2040).inRange = false ∧
    (Location.byte 256).inRange = false := by decide

/-- A legal `HOST_MAP`: the registers, then the two buffers. -/
def exampleMap : HostMap
  | .cmd => 0
  | .status => 1
  | .nbits => 2
  | .nbytes => 3
  | .bit p => 4 + p
  | .byte i => 2044 + i

theorem witness_LegalHostMapReachesEveryLocation : exampleMap.Legal ∧ (Location.bit 2039).inRange = true ∧
    (Location.byte 255).inRange = true := by
  refine ⟨fun l l' hl hl' h => ?_, by decide, by decide⟩
  cases l <;> cases l' <;>
    simp only [exampleMap, Location.inRange, decide_eq_true_eq, Config.bitCap, Config.byteCap] at h hl hl' <;>
    first | rfl | omega | (congr 1; omega)

theorem witness_LoadLinesWriteTheSequenceAndItsLength : (List.replicate 2040 true).length ≤ 2040 ∧
    (List.replicate 256 (0xAA : Byte)).length ≤ 256 := by
  simp only [List.length_replicate]
  decide

theorem witness_ReadLinesReturnTheValidPart : (loaded [] 2040 [] 0).nbits.toNat ≤ 2040 := by decide

/-- The empty and the longest sequence. -/
theorem witness_sequence_lengths : ([] : List Bool).length ≤ 2040 ∧ (List.replicate 2040 true).length ≤ 2040 := by
  simp only [List.length_replicate]
  decide

/-- The shortest and the longest frame. -/
theorem witness_frame_lengths : ([] : List Byte).length = (0x00 : Byte).toNat ∧
    (List.replicate 255 (0xE5 : Byte)).length = (0xFF : Byte).toNat := by
  simp only [List.length_replicate]
  decide

/-- RT11: `101` and `10100000`. -/
theorem witness_TrailingFalseWithinTheLastByteGivesTheSameFrame : [true, false, true].length ≤ 2040 ∧
    [true, false, true].length + 5 ≤ 8 * (([true, false, true].length + 7) / 8) := by decide

theorem witness_ObservedStatesAreTheStatesAfterEachAction : 1 < [writeCmd 0x02, .read .status].length ∧
    (statesAfter [writeCmd 0x02, .read .status] State.reset)[1]? =
      some { State.reset with status := 0x01, reads := [⟨.status, .byte 0x01⟩] } := by decide

/-- A run from reset that completes and has gone wrong, and one that completes and has not. -/
theorem witness_RunIsJudgedByItsStatusReads : State.reset.faultField = 0 ∧
    actAll [writeCmd 0x02, .read .status] State.reset =
      .next { State.reset with status := 0x01, reads := [⟨.status, .byte 0x01⟩] } ∧
    runWentWrong [writeCmd 0x02, .read .status] State.reset = true ∧
    actAll [.read .status] State.reset = .next { State.reset with reads := [⟨.status, .byte 0x00⟩] } ∧
    runWentWrong [.read .status] State.reset = false :=
  ⟨by decide, rfl, by decide, rfl, by decide⟩

theorem witness_RunGoneWrongStaysWrong : runWentWrong [writeCmd 0x00, .read .status] State.reset = true := by decide

theorem witness_StepKeepsTheStateLegal :
    (facing (.write .cmd (.byte 0x02))).Inv ∧
    step (facing (.write .cmd (.byte 0x02))) = .next { State.reset with status := 0x01 } :=
  ⟨⟨by decide, rfl, rfl⟩, rfl⟩

end Sys2Proof.Tests
end

section
/-! ## Proofs: the state

What a completed host action did, said once (each access inverted), and which facts of a command its operands fix. The
statements about the reset state, host accesses, the step and the invariant are settled from these. -/

namespace Sys2Proof.Machine

/-! ### Host accesses inverted -/

/-- A read completes exactly at a location that exists. -/
theorem act_read_eq_next {l : Location} {s t : State} :
    act (.read l) s = .next t ↔ l.inRange = true ∧ t = s.returnRead (s.readOf l) := by
  simp only [act, hostRead]
  split <;> simp [*, eq_comm]

/-- A write completes exactly at a location that exists and takes the value. -/
theorem act_write_eq_next {l : Location} {v : CellValue} {s t : State} :
    act (.write l v) s = .next t ↔ l.inRange = true ∧ hostStore l v s = .next t := by
  simp only [act, hostWrite]
  split <;> simp [*]

theorem act_writeStatus (v : Byte) (s : State) : act (.write .status (.byte v)) s = .next s := rfl

/-- What a write that completes can do, one case per register or buffer. -/
theorem hostStore_cases {l : Location} {v : CellValue} {s t : State} (h : hostStore l v s = .next t) :
    (∃ c, l = .cmd ∧ v = .byte c ∧ command c s = .next t) ∨
    (∃ c, l = .status ∧ v = .byte c ∧ t = s) ∨
    (∃ n, l = .nbits ∧ v = .half n ∧ t = s.setNbits n) ∨
    (∃ n, l = .nbytes ∧ v = .half n ∧ t = s.setNbytes n) ∨
    (∃ p b, l = .bit p ∧ v = .bit b ∧ t = s.writeBit p b) ∨
    (∃ i x, l = .byte i ∧ v = .byte x ∧ t = s.writeByte i x) := by
  simp only [hostStore] at h
  split at h
  · exact .inl ⟨_, rfl, rfl, h⟩
  all_goals cases h
  · exact .inr (.inl ⟨_, rfl, rfl, rfl⟩)
  · exact .inr (.inr (.inl ⟨_, rfl, rfl, rfl⟩))
  · exact .inr (.inr (.inr (.inl ⟨_, rfl, rfl, rfl⟩)))
  · exact .inr (.inr (.inr (.inr (.inl ⟨_, _, rfl, rfl, rfl⟩))))
  · exact .inr (.inr (.inr (.inr (.inr ⟨_, _, rfl, rfl, rfl⟩))))

/-! ### Commands -/

/-- Every byte written to `CMD` gives a next state (93_implementation_defined.md, Part 1). -/
theorem command_completes (c : Byte) (s : State) : ∃ t, command c s = .next t := by
  rcases command_cases c s with ⟨-, -, e⟩ | ⟨-, -, e⟩ | ⟨-, -, e⟩ | ⟨-, -, e⟩ | ⟨-, -, e⟩ <;> exact ⟨_, e⟩

theorem command_illegal {c : Byte} (h1 : c ≠ 0x01) (h2 : c ≠ 0x02) (s : State) :
    command c s = .next (s.report .illegalOp) := by
  have h := command_cases c s
  simp only [h1, h2, false_and, false_or] at h
  exact h.2.2

theorem command_of_decode {c : Byte} {i : Instr} (h : decode c = .instr i) (s : State) : command c s = exec i s := by
  simp only [command, h]

theorem decode_encode (i : Instr) : decode (encode i) = .instr i := by
  cases i with
  | pack => exact Laws.Encoding.pack.2.2
  | unpack => exact Laws.Encoding.unpack.2.2

/-- The word of a byte starts the command of that byte. -/
theorem commandWrite_toNat (c : Byte) : commandWrite 8 c.toNat = .write .cmd (.byte c) := by
  rw [commandWrite, Nat.mod_eq_of_lt c.isLt, BitVec.ofNat_toNat, BitVec.setWidth_eq]

theorem exec_pack (s : State) : exec .pack s = execPack s := rfl

theorem exec_unpack (s : State) : exec .unpack s = execUnpack s := rfl

/-! ### What the operands fix -/

/-- The operand of `PACK` is a function of `NBITS` and the cells below it. -/
theorem State.bitOperand_congr {s s' : State} (hn : s.bitLength = s'.bitLength)
    (hb : ∀ p, p < s.bitLength → s.readBit p = s'.readBit p) : s.bitOperand = s'.bitOperand := by
  rw [State.bitOperand, State.bitOperand, ← hn]
  exact List.map_congr_left fun p hp => hb p (List.mem_range.1 hp)

/-- The frame `PACK` writes is a function of its operand. -/
theorem State.readByte_packed_congr {s s' : State} (h : s.bitOperand = s'.bitOperand) {a : Nat}
    (ha : a ≤ byteCountOf s.bitLength) : s.packed.readByte a = s'.packed.readByte a := by
  have hl : s.bitLength = s'.bitLength := by simpa using congrArg List.length h
  cases a with
  | zero => rw [readByte_packed_zero, readByte_packed_zero, hl]
  | succ k =>
    rw [Nat.add_comm k 1, readByte_packed_data s ha, readByte_packed_data s' (hl ▸ ha), h]

/-- The sequence `UNPACK` writes is a function of the count and the data bytes. -/
theorem State.readBit_unpacked_congr {s s' : State} (h : ∀ i, i ≤ s.byteCount → s.readByte i = s'.readByte i)
    {q : Nat} (hq : q < 8 * s.byteCount) : s.unpacked.readBit q = s'.unpacked.readBit q := by
  have hN : s.byteCount = s'.byteCount := congrArg BitVec.toNat (h 0 (Nat.zero_le _))
  rw [readBit_unpacked s hq, readBit_unpacked s' (hN ▸ hq), h _ (by omega)]

/-- `PACK` from two states that agree on its operand. -/
theorem execPack_congr {s s' : State} (hn : s.bitLength = s'.bitLength)
    (hb : s.bitLength ≤ 2040 → ∀ p, p < s.bitLength → s.readBit p = s'.readBit p) :
    ∃ t t', execPack s = .next t ∧ execPack s' = .next t' ∧ t.status = t'.status ∧
      (s.bitLength ≤ 2040 → t.nbytes = t'.nbytes ∧
        ∀ a, a ≤ byteCountOf s.bitLength → t.readByte a = t'.readByte a) := by
  rcases Nat.lt_or_ge 2040 s.bitLength with h | h
  · exact ⟨_, _, execPack_overflow h, execPack_overflow (hn ▸ h), rfl, fun h' => by omega⟩
  · refine ⟨_, _, execPack_succeeds h, execPack_succeeds (hn ▸ h), rfl, fun _ => ⟨by simp [hn], fun a ha => ?_⟩⟩
    exact State.readByte_packed_congr (State.bitOperand_congr hn (hb h)) ha

/-- `UNPACK` from two states that agree on its operand: on `NBYTES`, on the count unless there is no byte, and on the
frame when it is whole. -/
theorem execUnpack_congr {s s' : State} (hn : s.available = s'.available)
    (h0 : 1 ≤ s.available → s.byteCount = s'.byteCount)
    (hb : 1 + s.byteCount ≤ s.available → ∀ i, i ≤ s.byteCount → s.readByte i = s'.readByte i) :
    ∃ t t', execUnpack s = .next t ∧ execUnpack s' = .next t' ∧ t.status = t'.status ∧
      (1 + s.byteCount ≤ s.available → t.nbits = t'.nbits ∧
        ∀ q, q < 8 * s.byteCount → t.readBit q = t'.readBit q) := by
  rcases Nat.lt_or_ge s.available (1 + s.byteCount) with h | h
  · have hs' : s'.available = 0 ∨ s'.available < 1 + s'.byteCount := by omega
    exact ⟨_, _, execUnpack_short (.inr h), execUnpack_short hs', rfl, fun h' => by omega⟩
  · have hN : s.byteCount = s'.byteCount := h0 (by omega)
    refine ⟨_, _, execUnpack_succeeds h, execUnpack_succeeds (by omega), rfl, fun _ => ⟨by simp [hN], fun q hq => ?_⟩⟩
    exact State.readBit_unpacked_congr (hb h) hq

/-! ### Unwritten cells -/

/-- A cell nothing has written holds its free value (10_state.md R26). -/
theorem State.readBit_of_unwritten {s : State} {p : Nat} (h : s.bits.read p = none) :
    s.readBit p = Config.unwrittenBit s.epoch p := by
  simp only [State.readBit, h]

theorem State.readByte_of_unwritten {s : State} {i : Nat} (h : s.bytes.read i = none) :
    s.readByte i = Config.unwrittenByte s.epoch i := by
  simp only [State.readByte, h]

/-! ### The invariant -/

theorem step_of_no_actions {s : State} (h : s.actions = []) : step s = .next s := by
  simp only [step, State.nextAction?, h]

theorem State.Inv.reset : State.reset.Inv := ⟨rfl, rfl, rfl⟩

/-- A reset event gives the registers and buffers of the reset state, which are all the invariant speaks of. -/
theorem State.Inv.resetEvent (s : State) : s.resetEvent.Inv := State.Inv.reset

/-- Only a command that has checked its operand writes a buffer. -/
theorem State.Inv.command {c : Byte} {s t : State} (hs : s.Inv) (h : command c s = .next t) : t.Inv := by
  rcases command_cases c s with ⟨-, -, e⟩ | ⟨-, hL, e⟩ | ⟨-, -, e⟩ | ⟨-, -, e⟩ | ⟨-, -, e⟩ <;> rw [e] at h <;> cases h
  · exact hs.report .packOverflow
  · exact (hs.packed hL).report .noFault
  · exact hs.report .frameError
  · exact hs.unpacked.report .noFault
  · exact hs.report .illegalOp

/-- A write reaches existing cells only, and no access but a command changes `STATUS`. -/
theorem State.Inv.hostStore {l : Location} {v : CellValue} {s t : State} (hs : s.Inv) (hl : l.inRange = true)
    (h : hostStore l v s = .next t) : t.Inv := by
  rcases hostStore_cases h with ⟨c, -, -, hc⟩ | ⟨c, -, -, rfl⟩ | ⟨n, -, -, rfl⟩ | ⟨n, -, -, rfl⟩ | ⟨p, b, rfl, -, rfl⟩ |
    ⟨i, x, rfl, -, rfl⟩
  · exact hs.command hc
  · exact hs
  · exact hs
  · exact hs
  · exact hs.writeBit (Location.inRange_bit.1 hl) b
  · exact hs.writeByte (Location.inRange_byte.1 hl) x

theorem State.Inv.act {a : HostAction} {s t : State} (hs : s.Inv) (h : act a s = .next t) : t.Inv := by
  cases a with
  | read l =>
    obtain ⟨-, rfl⟩ := act_read_eq_next.1 h
    exact hs
  | write l v =>
    obtain ⟨hl, hv⟩ := act_write_eq_next.1 h
    exact hs.hostStore hl hv
  | reset =>
    cases h
    exact State.Inv.resetEvent s

/-- With no action to come a step keeps the state; else it performs the next action. -/
theorem State.Inv.step {s t : State} (hs : s.Inv) (h : step s = .next t) : t.Inv := by
  cases e : s.actions with
  | nil =>
    rw [step_of_no_actions e] at h
    cases h
    exact hs
  | cons a rest =>
    rw [step_of_actions e] at h
    have hs' : State.Inv { s with actions := rest } := hs
    exact hs'.act h

/-! ### Which writes complete -/

theorem hostStore_completes_iff {l : Location} {v : CellValue} {s : State} :
    (∃ t, hostStore l v s = .next t) ↔ v.fits l = true := by
  constructor
  · rintro ⟨t, h⟩
    rcases hostStore_cases h with ⟨c, rfl, rfl, -⟩ | ⟨c, rfl, rfl, -⟩ | ⟨n, rfl, rfl, -⟩ | ⟨n, rfl, rfl, -⟩ |
      ⟨p, b, rfl, rfl, -⟩ | ⟨i, x, rfl, rfl, -⟩ <;> rfl
  · intro h
    simp only [CellValue.fits] at h
    split at h
    · exact command_completes _ s
    all_goals cases h
    all_goals exact ⟨_, rfl⟩

/-! ### The statements -/

/-- Settles O50: the next state of a step is that of a host action, and every action keeps the invariant. -/
theorem stepKeepsTheStateLegal : Obligations.StepKeepsTheStateLegal :=
  fun _ _ hs h => hs.step h

/-- Settles O28: the checks and the written cells of both commands are functions of the operand, and an illegal byte's
fault code of nothing. -/
theorem commandResultDependsOnItsOperandsOnly : Obligations.CommandResultDependsOnItsOperandsOnly := by
  refine ⟨fun s s' hn hb => ?_, fun s s' hn h0 hb => ?_, fun c s s' h1 h2 => ?_⟩
  · rw [exec_pack, exec_pack]
    exact execPack_congr (congrArg BitVec.toNat hn) hb
  · rw [exec_unpack, exec_unpack]
    exact execUnpack_congr (congrArg BitVec.toNat hn) (fun h => congrArg BitVec.toNat (h0 h)) hb
  · rw [act_writeCmd, act_writeCmd]
    exact ⟨_, _, command_illegal h1 h2 s, command_illegal h1 h2 s', rfl⟩

/-- Settles O32, from what a cell reads as after a write to it or to another cell. -/
theorem hostWriteChangesTheNamedCellOnly : Obligations.HostWriteChangesTheNamedCellOnly := by
  refine fun s => ⟨fun v => act_writeStatus v s, fun n => act_writeNbits n s, fun n => act_writeNbytes n s,
    fun p b hp => ⟨s.bits.write p b, act_writeBit hp b s, ?_, fun q hq => ?_⟩,
    fun i v hi => ⟨s.bytes.write i v, act_writeByte hi v s, ?_, fun j hj => ?_⟩⟩
  · exact (s.readBit_writeBit p b p).trans (if_pos rfl)
  · exact (s.readBit_writeBit p b q).trans (if_neg hq)
  · exact (s.readByte_writeByte i v i).trans (if_pos rfl)
  · exact (s.readByte_writeByte i v j).trans (if_neg hj)

/-- Settles O34: an access completes exactly where its location exists and, for a write, the value fits. -/
theorem hostActionCompletesExactlyWhenWellFormed : Obligations.HostActionCompletesExactlyWhenWellFormed := by
  intro a s
  cases a with
  | read l => simp [act_read_eq_next, HostAction.wf]
  | write l v => simp [act_write_eq_next, hostStore_completes_iff, HostAction.wf]
  | reset => exact ⟨fun _ => rfl, fun _ => ⟨_, rfl⟩⟩

/-- Settles O1: the reset state's buffers list no cell. -/
theorem resetZeroesRegistersAndLeavesCellsUnspecified : Obligations.ResetZeroesRegistersAndLeavesCellsUnspecified :=
  ⟨rfl, rfl, rfl, rfl, fun _ _ => ⟨rfl, State.readBit_of_unwritten rfl⟩,
    fun _ _ => ⟨rfl, State.readByte_of_unwritten rfl⟩⟩

/-- Settles O7: the step performs the write of the byte, and a command's own byte decodes to it. -/
theorem stepRunsTheDecodedCommand : Obligations.StepRunsTheDecodedCommand := by
  refine ⟨fun s c i rest h _ hd => ?_, fun s i _ => ?_⟩
  · rw [step_of_actions h, act_writeCmd, command_of_decode hd]
  · have h : (s.withFetchWord 8 (encode i).toNat).actions = .write .cmd (.byte (encode i)) :: s.actions :=
      congrArg (· :: s.actions) (commandWrite_toNat (encode i))
    rw [step_of_actions h, act_writeCmd, command_of_decode (decode_encode i)]
    rfl

/-- Settles O31: each named location exists, so the read returns what `look` gives there. -/
theorem hostReadReturnsTheNamedValue : Obligations.HostReadReturnsTheNamedValue :=
  fun s => ⟨act_read rfl s, act_read rfl s, act_read rfl s, act_read rfl s,
    fun _ hp => act_read (Location.inRange_bit.2 hp) s, fun _ hi => act_read (Location.inRange_byte.2 hi) s⟩

/-- Settles O49: `STATUS` is 0 and both buffers are empty. -/
theorem resetStateIsLegal : Obligations.ResetStateIsLegal := State.Inv.reset

end Sys2Proof.Machine
end

section
/-! ## Proofs: memory

Where a position stands in the frame, that a command finds its own result unchanged (20_memory.md R38), and what a legal
`HOST_MAP` places at an address. The statements about the buffers and the order of accesses are settled from these. -/

namespace Sys2Proof.Machine

/-! ### Positions and bits of the frame -/

theorem frameAddress_eq (p : Nat) : frameAddress p = 1 + p / 8 := rfl

theorem lane_eq (p : Nat) : lane p = p % 8 := rfl

theorem positionOf_eq (a i : Nat) : positionOf a i = 8 * (a - 1) + i := rfl

theorem positionOf_frameAddress (p : Nat) : positionOf (frameAddress p) (lane p) = p := by
  rw [positionOf_eq, frameAddress_eq, lane_eq]; omega

theorem frameAddress_positionOf {a i : Nat} (ha : 1 ≤ a) (hi : i < 8) : frameAddress (positionOf a i) = a := by
  rw [frameAddress_eq, positionOf_eq]; omega

theorem lane_positionOf (a : Nat) {i : Nat} (hi : i < 8) : lane (positionOf a i) = i := by
  rw [lane_eq, positionOf_eq]; omega

/-- Bit `p mod 8` of the data byte `p div 8` that `PACK` writes (20_memory.md R33). -/
theorem State.readByte_packed_lane (s : State) {p : Nat} (h : p < s.bitLength) :
    (s.packed.readByte (1 + p / 8)).getLsbD (p % 8) = s.readBit p := by
  have hk : p / 8 < byteCountOf s.bitLength := by rw [byteCountOf_eq]; omega
  rw [s.readByte_packed_data hk, packByte_lane _ _ (Nat.mod_lt p (by decide)), Nat.div_add_mod, s.bitOperand_getD]
  simp [h]

/-! ### A command repeated -/

/-- `PACK` writes no cell of its operand, so it finds the same frame again. -/
theorem State.packed_packed (s : State) : s.packed.packed = s.packed := by
  have hop : s.packed.bitOperand = s.bitOperand := rfl
  have hb : s.packed.bytes.writePrefix (packFrame s.packed.bitOperand) = s.packed.bytes := by
    rw [hop, State.packed_bytes, Memory.writePrefix_twice]
  exact congrArg (fun m => { s.packed with bytes := m }) hb

/-- `UNPACK` writes no byte of its frame, so it finds the same sequence again. -/
theorem State.unpacked_unpacked (s : State) : s.unpacked.unpacked = s.unpacked := by
  have hop : s.unpacked.dataOperand = s.dataOperand := rfl
  have hb : s.unpacked.bits.writePrefix (unpackData s.unpacked.dataOperand) = s.unpacked.bits := by
    rw [hop, State.unpacked_bits, Memory.writePrefix_twice]
  exact congrArg (fun m => { s.unpacked with bits := m }) hb

theorem State.packed_report (s : State) (f : FaultCode) : (s.report f).packed = s.packed.report f := rfl

theorem State.unpacked_report (s : State) (f : FaultCode) : (s.report f).unpacked = s.unpacked.report f := rfl

theorem State.report_report (s : State) (f g : FaultCode) : (s.report f).report g = s.report g := rfl

/-- `PACK` performed once more at the state it has left. -/
theorem execPack_again {s t : State} (h : execPack s = .next t) : execPack t = .next t := by
  rcases Nat.lt_or_ge 2040 s.bitLength with hL | hL
  · obtain rfl : s.report .packOverflow = t := by simpa [execPack_overflow hL] using h
    exact execPack_overflow hL
  · obtain rfl : s.packed.report .noFault = t := by simpa [execPack_succeeds hL] using h
    have hL' : (s.packed.report .noFault).bitLength ≤ 2040 := hL
    rw [execPack_succeeds hL', State.packed_report, State.packed_packed, State.report_report]

/-- `UNPACK` performed once more at the state it has left. -/
theorem execUnpack_again {s t : State} (h : execUnpack s = .next t) : execUnpack t = .next t := by
  rcases Nat.lt_or_ge s.available (1 + s.byteCount) with hA | hA
  · obtain rfl : s.report .frameError = t := by simpa [execUnpack_short (.inr hA)] using h
    exact execUnpack_short (.inr hA)
  · obtain rfl : s.unpacked.report .noFault = t := by simpa [execUnpack_succeeds hA] using h
    have hA' : 1 + (s.unpacked.report .noFault).byteCount ≤ (s.unpacked.report .noFault).available := hA
    rw [execUnpack_succeeds hA', State.unpacked_report, State.unpacked_unpacked, State.report_report]

/-- A byte written to `CMD` again decodes alike; an illegal one reports the same fault. -/
theorem command_again {c : Byte} {s t : State} (h : command c s = .next t) : command c t = .next t := by
  cases hd : decode c with
  | instr i =>
    rw [command_of_decode hd] at h ⊢
    cases i with
    | pack => exact execPack_again h
    | unpack => exact execUnpack_again h
  | illegal w =>
    simp only [command, hd] at h ⊢
    cases h
    rfl

/-! ### Placement on the bus -/

theorem mem_locations {l : Location} : l ∈ locations ↔ l.inRange = true := by
  cases l <;> simp [locations, Location.inRange]

/-- What is placed at an address is a register or cell that exists, and the map sends it there. -/
theorem HostMap.locate_sound {m : HostMap} {a : Nat} {l : Location} (h : m.locate a = some l) :
    l.inRange = true ∧ m l = a :=
  ⟨mem_locations.1 (List.mem_of_find?_eq_some h), by simpa using List.find?_some h⟩

theorem HostMap.locate_isSome (m : HostMap) {l : Location} (h : l.inRange = true) : (m.locate (m l)).isSome = true := by
  rw [HostMap.locate, List.find?_isSome]
  exact ⟨l, mem_locations.2 h, beq_self_eq_true _⟩

/-- Under a legal map an address determines the location placed there. -/
theorem HostMap.Legal.locate_eq {m : HostMap} (hm : m.Legal) {l : Location} (hl : l.inRange = true) :
    m.locate (m l) = some l := by
  obtain ⟨l', e⟩ := Option.isSome_iff_exists.1 (m.locate_isSome hl)
  obtain ⟨hl', ha⟩ := HostMap.locate_sound e
  rw [e, hm l' l hl' hl ha]

theorem busRead_of_locate {m : HostMap} {a : Nat} {l : Location} (h : m.locate a = some l) (s : State) :
    busRead m a s = act (.read l) s := by
  simp only [busRead, h]

theorem busWrite_of_locate {m : HostMap} {a : Nat} {l : Location} (h : m.locate a = some l) (v : CellValue)
    (s : State) : busWrite m a v s = act (.write l v) s := by
  simp only [busWrite, h]

/-! ### Indices outside a buffer -/

theorem Location.inRange_bit_eq_false {p : Nat} (h : 2040 ≤ p) : (Location.bit p).inRange = false :=
  decide_eq_false (Nat.not_lt.2 h)

theorem Location.inRange_byte_eq_false {i : Nat} (h : 256 ≤ i) : (Location.byte i).inRange = false :=
  decide_eq_false (Nat.not_lt.2 h)

/-! ### The statements -/

/-- Settles O11: every position below `NBITS` lies in a data byte of the frame `PACK` writes, in the lane R33 names. -/
theorem packPutsPositionsLeastSignificantFirst : Obligations.PackPutsPositionsLeastSignificantFirst :=
  fun s hL => ⟨_, (exec_pack s).trans (execPack_succeeds hL), fun _ hp => s.readByte_packed_lane hp⟩

/-- Settles O29: a command leaves its operand and writes the same result over itself, a fault leaves its cause. -/
theorem repeatedCommandChangesNothingMore : Obligations.RepeatedCommandChangesNothingMore := by
  intro c s
  obtain ⟨t, h⟩ := command_completes c s
  exact ⟨t, (act_writeCmd c s).trans h, (act_writeCmd c t).trans (command_again h)⟩

/-- Settles O35: under a legal map the location found at an address is the one the map sends there. -/
theorem legalHostMapReachesEveryLocation : Obligations.LegalHostMapReachesEveryLocation :=
  fun _ _ s hm hl => ⟨busRead_of_locate (hm.locate_eq hl) s, fun v => busWrite_of_locate (hm.locate_eq hl) v s⟩

/-- Settles O6, by the two cases of the list of actions to come. -/
theorem stepPerformsTheNextHostAction : Obligations.StepPerformsTheNextHostAction :=
  ⟨fun _ _ _ h => step_of_actions h, fun _ h => step_of_no_actions h⟩

/-- Settles O12: division by 8 with remainder, moved by the count in frame byte 0. -/
theorem addressMapIsOneToOne : Obligations.AddressMapIsOneToOne := by
  refine ⟨fun p => ⟨frameAddress_eq p, lane_eq p, positionOf_frameAddress p⟩,
    fun a i ha hi => ⟨positionOf_eq a i, frameAddress_positionOf ha hi, lane_positionOf a hi⟩, fun p => ?_⟩
  rw [frameAddress_eq]
  omega

/-- Settles O33: no index from a buffer's size on is in range. -/
theorem indexOutsideABufferIsRefused : Obligations.IndexOutsideABufferIsRefused :=
  fun s => ⟨fun _ hp => act_noSuchCell (Location.inRange_bit_eq_false hp) s,
    fun _ hi => act_noSuchCell (Location.inRange_byte_eq_false hi) s⟩

end Sys2Proof.Machine
end

section
/-! ## Proofs: encoding

The command byte as its two fields, the bytes `PACK` writes as sums of lane weights, and what the load and read lines of the
notation do. The statements of 30_encoding.md are settled from these. -/

namespace Sys2Proof.Machine

/-! ### The command byte -/

/-- A byte is its reserved field above its operation field (30_encoding.md R57). -/
theorem rsvField_append_opField (c : Byte) : rsvField c ++ opField c = c := by
  refine byte_ext fun i hi => ?_
  rw [BitVec.getLsbD_append]
  rcases Nat.lt_or_ge i 2 with h | h
  · simp [opField, h]
  · simp [rsvField, Nat.not_lt.2 h, Nat.add_sub_cancel' h, show i - 2 < 6 by omega]

/-- What the decoder has checked of a byte it accepts (30_encoding.md R57, R58). -/
theorem fields_of_decode {c : Byte} {i : Instr} (h : decode c = .instr i) :
    rsvField c = 0 ∧ opField c = encodeOp i := by
  simp only [decode] at h
  split at h
  · cases h
  next hrsv =>
    refine ⟨not_not.1 hrsv, ?_⟩
    split at h
    next hop => cases h; exact hop
    next =>
      split at h
      next hop => cases h; exact hop
      next => cases h

/-- Only a command's own byte decodes to it. -/
theorem eq_encode_of_decode {c : Byte} {i : Instr} (h : decode c = .instr i) : c = encode i := by
  obtain ⟨hrsv, hop⟩ := fields_of_decode h
  rw [← rsvField_append_opField c, hrsv, hop, encode]

/-- Every byte but the two commands' own is rejected (30_encoding.md R59). -/
theorem toInstr?_decode_of_ne {c : Byte} (h1 : c ≠ 0x01) (h2 : c ≠ 0x02) : (decode c).toInstr? = none := by
  cases e : decode c with
  | illegal w => rfl
  | instr i =>
    cases i with
    | pack => exact absurd (eq_encode_of_decode e) h1
    | unpack => exact absurd (eq_encode_of_decode e) h2

/-! ### The data bytes of a frame -/

/-- A lane of the frame `PACK` writes has weight where the position is below `NBITS` and its cell is `true`
(30_encoding.md R53). -/
theorem State.toNat_readByte_packed_data (s : State) {k : Nat} (h : k < byteCountOf s.bitLength) :
    (s.packed.readByte (1 + k)).toNat = laneSum (fun i => decide (8 * k + i < s.bitLength) && s.readBit (8 * k + i)) := by
  simp only [s.readByte_packed_data h, packByte_toNat, State.bitOperand_getD]

/-- Entries past the end count as `false`, so appended `false` entries change no lane. -/
theorem getD_append_replicate_false (bs : List Bool) (j p : Nat) :
    (bs ++ List.replicate j false).getD p false = bs.getD p false := by
  rcases Nat.lt_or_ge p bs.length with h | h
  · rw [List.getD_append _ _ _ _ h]
  · rw [List.getD_append_right _ _ _ _ h, List.getD_eq_default _ _ h, List.getD_eq_getElem?_getD,
      List.getElem?_getD_replicate_default_eq]

/-- The frame does not carry the length: `false` entries that need no further data byte leave it as it is
(30_encoding.md R56). -/
theorem packFrame_append_replicate_false {bs : List Bool} {j : Nat}
    (h : byteCountOf (bs.length + j) = byteCountOf bs.length) :
    packFrame (bs ++ List.replicate j false) = packFrame bs := by
  have hb : packByte (bs ++ List.replicate j false) = packByte bs := by
    funext k
    simp only [packByte_eq, getD_append_replicate_false]
  simp only [packFrame, List.length_append, List.length_replicate, h, hb]

theorem pack_of_length_le {bs : List Bool} (h : bs.length ≤ 2040) : pack bs = some (packFrame bs) := if_pos h

/-! ### The load lines -/

theorem State.readBit_eq_getD (s : State) (p : Nat) :
    s.readBit p = (s.bits.read p).getD (Config.unwrittenBit s.epoch p) := by
  rw [State.readBit]
  cases s.bits.read p <;> rfl

theorem State.readByte_eq_getD (s : State) (i : Nat) :
    s.readByte i = (s.bytes.read i).getD (Config.unwrittenByte s.epoch i) := by
  rw [State.readByte]
  cases s.bytes.read i <;> rfl

/-- Loading writes the cells that the list covers and keeps the others, then sets the length. -/
theorem runLine_ldBits {bs : List Bool} (h : bs.length ≤ 2040) (s : State) :
    ∃ m, runLine (.ldBits bs) s = .next { s with bits := m, nbits := BitVec.ofNat 16 bs.length } ∧
      ∀ p, Memory.read m p = bs[p]?.or (s.bits.read p) := by
  obtain ⟨m, hm, hr⟩ := actAll_bitWrites bs 0 s (by omega)
  refine ⟨m, ?_, fun p => ?_⟩
  · rw [runLine, lineActions, ldBitsActions, actAll_append, hm, andThen, actAll_singleton, act_writeNbits]
    rfl
  · rw [hr]
    by_cases hp : p < bs.length <;> simp [hp]

theorem runLine_ldBytes {hs : List Byte} (h : hs.length ≤ 256) (s : State) :
    ∃ m, runLine (.ldBytes hs) s = .next { s with bytes := m, nbytes := BitVec.ofNat 16 hs.length } ∧
      ∀ i, Memory.read m i = hs[i]?.or (s.bytes.read i) := by
  obtain ⟨m, hm, hr⟩ := actAll_byteWrites hs 0 s (by omega)
  refine ⟨m, ?_, fun i => ?_⟩
  · rw [runLine, lineActions, ldBytesActions, actAll_append, hm, andThen, actAll_singleton, act_writeNbytes]
    rfl
  · rw [hr]
    by_cases hi : i < hs.length <;> simp [hi]

/-! ### The read lines -/

theorem rdBitsActions_eq (s : State) :
    rdBitsActions s = (Location.nbits :: (List.range s.nbits.toNat).map Location.bit).map .read := by
  simp [rdBitsActions]

theorem rdBytesActions_eq (s : State) :
    rdBytesActions s = (Location.nbytes :: (List.range (min s.nbytes.toNat 256)).map Location.byte).map .read := by
  simp [rdBytesActions]

theorem inRange_bits {n : Nat} (h : n ≤ 2040) : ∀ l ∈ (List.range n).map Location.bit, l.inRange = true := by
  intro l hl
  obtain ⟨p, hp, rfl⟩ := List.mem_map.1 hl
  exact Location.inRange_bit.2 ((List.mem_range.1 hp).trans_le h)

theorem inRange_bytes {n : Nat} (h : n ≤ 256) : ∀ l ∈ (List.range n).map Location.byte, l.inRange = true := by
  intro l hl
  obtain ⟨i, hi, rfl⟩ := List.mem_map.1 hl
  exact Location.inRange_byte.2 ((List.mem_range.1 hi).trans_le h)

/-- `RDBITS` is the reads of `NBITS` and of the cells below it, and they all exist while `NBITS` is at most 2040. -/
theorem runLine_rdBits {s : State} (h : s.nbits.toNat ≤ 2040) :
    runLine .rdBits s = .next { s with
      reads := s.reads ++ s.readOf .nbits :: (List.range s.nbits.toNat).map (fun p => s.readOf (.bit p)) } := by
  rw [runLine, lineActions, rdBitsActions_eq, actAll_reads _ s (List.forall_mem_cons.2 ⟨rfl, inRange_bits h⟩),
    List.map_cons, List.map_map]
  rfl

/-- `RDBYTES` reads no index outside `BYTES`, whatever `NBYTES` holds. -/
theorem runLine_rdBytes (s : State) :
    runLine .rdBytes s = .next { s with
      reads := s.reads ++ s.readOf .nbytes ::
        (List.range (min s.nbytes.toNat 256)).map (fun i => s.readOf (.byte i)) } := by
  have hr := inRange_bytes (Nat.min_le_right s.nbytes.toNat 256)
  rw [runLine, lineActions, rdBytesActions_eq, actAll_reads _ s (List.forall_mem_cons.2 ⟨rfl, hr⟩),
    List.map_cons, List.map_map]
  rfl

/-! ### The statements -/

/-- Settles O8: such a byte is rejected by the decoder, and the step performs its write. -/
theorem illegalByteFaultsAndPerformsNothing : Obligations.IllegalByteFaultsAndPerformsNothing := by
  intro s c h1 h2
  have hact (t : State) : act (.write .cmd (.byte c)) t = .next (t.report .illegalOp) := command_illegal h1 h2 t
  exact ⟨hact s, fun rest hs => (step_of_actions hs).trans (hact _)⟩

/-- Settles O10: no sum of lane weights wraps, and a lane of the operand has weight exactly where R53 says. -/
theorem packDataByteIsTheWeightedSum : Obligations.PackDataByteIsTheWeightedSum := by
  refine fun s hL => ⟨_, (exec_pack s).trans (execPack_succeeds hL), fun k hk => ?_⟩
  rw [State.readByte_report, s.toNat_readByte_packed_data hk]
  simp only [laneSum, Bool.and_eq_true, decide_eq_true_eq]
  rfl

/-- Settles O36: a cell the list covers holds the list's entry, any other what it held. -/
theorem loadLinesWriteTheSequenceAndItsLength : Obligations.LoadLinesWriteTheSequenceAndItsLength := by
  refine ⟨fun bs s h => ?_, fun hs s h => ?_⟩
  · obtain ⟨m, hm, hr⟩ := runLine_ldBits h s
    refine ⟨m, hm, fun p => ?_⟩
    rw [State.readBit_eq_getD, hr, Option.getD_or, ← s.readBit_eq_getD, List.getD_eq_getElem?_getD]
  · obtain ⟨m, hm, hr⟩ := runLine_ldBytes h s
    refine ⟨m, hm, fun i => ?_⟩
    rw [State.readByte_eq_getD, hr, Option.getD_or, ← s.readByte_eq_getD, List.getD_eq_getElem?_getD]

/-- Settles O37: both lines are reads of existing locations, whose values return in their order. -/
theorem readLinesReturnTheValidPart : Obligations.ReadLinesReturnTheValidPart :=
  ⟨fun _ h => runLine_rdBits h, runLine_rdBytes⟩

/-- Settles O48: both sequences have the same byte count and the same lanes. -/
theorem trailingFalseWithinTheLastByteGivesTheSameFrame :
    Obligations.TrailingFalseWithinTheLastByteGivesTheSameFrame := by
  intro bs j hL hj
  have hN : byteCountOf (bs.length + j) = byteCountOf bs.length := by
    rw [byteCountOf_eq, byteCountOf_eq]
    omega
  refine ⟨packFrame bs, pack_of_length_le hL, ?_⟩
  rw [pack_of_length_le, packFrame_append_replicate_false hN]
  simp only [List.length_append, List.length_replicate]
  omega

/-- Settles O4: the first two are the commands' own bytes, the others are not. -/
theorem opcodeTableBytesDecodeAsWritten : Obligations.OpcodeTableBytesDecodeAsWritten :=
  ⟨decode_encode .pack, decode_encode .unpack, toInstr?_decode_of_ne (by decide) (by decide),
    toInstr?_decode_of_ne (by decide) (by decide), toInstr?_decode_of_ne (by decide) (by decide),
    toInstr?_decode_of_ne (by decide) (by decide), toInstr?_decode_of_ne (by decide) (by decide),
    toInstr?_decode_of_ne (by decide) (by decide)⟩

/-- Settles O5: decoding follows encoding, and the two fields that decode to a command make up its byte. -/
theorem commandBytesRoundTrip : Obligations.CommandBytesRoundTrip :=
  ⟨fun i _ => decode_encode i, fun _ _ => eq_encode_of_decode⟩

end Sys2Proof.Machine
end

section
/-! ## Proofs: PACK

The count, the padding and the cells of the frame `PACK` writes, and that the leftovers in `BITS` do not enter it. The
statements of 40_pack.md are settled from these. -/

namespace Sys2Proof.Machine

/-! ### Lengths -/

/-- The count fits one byte exactly for the lengths `PACK` accepts (40_pack.md R72). -/
theorem maxBits_lt_iff (L : Nat) : 2040 < L ↔ 255 < byteCountOf L := by
  rw [byteCountOf_eq]; omega

/-- The protocol's 1 to 2000 booleans are the lengths with a count of 1 to 250 (30_encoding.md R55, 40_pack.md R76). -/
theorem byteCountOf_protocol_iff (L : Nat) : 1 ≤ byteCountOf L ∧ byteCountOf L ≤ 250 ↔ 1 ≤ L ∧ L ≤ 2000 := by
  rw [byteCountOf_eq]; omega

theorem State.inProtocolRange_iff (s : State) : s.inProtocolRange = true ↔ 1 ≤ s.bitLength ∧ s.bitLength ≤ 2000 := by
  simp [State.inProtocolRange]

/-- The count `PACK` writes does not wrap (42_laws_and_pseudo_ops.md R93). -/
theorem State.toNat_readByte_packed_zero {s : State} (h : s.bitLength ≤ 2040) :
    (s.packed.readByte 0).toNat = byteCountOf s.bitLength := by
  rw [s.readByte_packed_zero, toNat_byte (Nat.lt_succ_of_le (byteCountOf_le h))]

/-- The frame's length does not wrap in `NBYTES` (42_laws_and_pseudo_ops.md R93). -/
theorem State.toNat_nbytes_packed {s : State} (h : s.bitLength ≤ 2040) :
    s.packed.nbytes.toNat = 1 + byteCountOf s.bitLength := by
  have := byteCountOf_le h
  rw [s.packed_nbytes, toNat_half (by omega)]

/-! ### The frame in `BYTES` -/

/-- `BYTES[a]` is byte `a` of the frame (40_pack.md R71). -/
theorem State.packFrame_getElem? (s : State) {a : Nat} (h : a < (packFrame s.bitOperand).length) :
    (packFrame s.bitOperand)[a]? = some (s.packed.readByte a) := by
  rw [State.packed, State.readByte_setNbytes, State.readByte_storeBytes, dif_pos h, List.getElem?_eq_getElem h]

/-- A lane of the frame at a position from `NBITS` on is 0 (40_pack.md R74). -/
theorem State.readByte_packed_padding (s : State) {k i : Nat} (hk : k < byteCountOf s.bitLength) (hi : i < 8)
    (h : s.bitLength ≤ 8 * k + i) : (s.packed.readByte (1 + k)).getLsbD i = false := by
  rw [s.readByte_packed_data hk, packByte_lane _ _ hi, s.bitOperand_getD, decide_eq_false (Nat.not_lt.2 h),
    Bool.false_and]

/-- Padding lies in the last data byte, in the lanes from `NBITS mod 8` on (30_encoding.md R54). -/
theorem State.readByte_packed_last_padding (s : State) {i : Nat} (h8 : s.bitLength % 8 ≠ 0) (h : s.bitLength % 8 ≤ i)
    (hi : i < 8) : (s.packed.readByte (byteCountOf s.bitLength)).getLsbD i = false := by
  have hlast : byteCountOf s.bitLength = 1 + s.bitLength / 8 := by rw [byteCountOf_eq]; omega
  rw [hlast]
  exact s.readByte_packed_padding (by omega) hi (by omega)

/-! ### Leftovers -/

/-- Other contents of `BITS` that agree below `NBITS` give the same frame, and stay as they are (40_pack.md R74). -/
theorem State.packed_withBits {s : State} {m : Memory Bool}
    (h : ∀ p, p < s.bitLength → State.readBit { s with bits := m } p = s.readBit p) :
    State.packed { s with bits := m } = { s.packed with bits := m } := by
  have hop : State.bitOperand { s with bits := m } = s.bitOperand := State.bitOperand_congr rfl h
  rw [State.packed, hop]
  rfl

theorem execPack_withBits {s : State} {m : Memory Bool} (hL : s.bitLength ≤ 2040)
    (h : ∀ p, p < s.bitLength → State.readBit { s with bits := m } p = s.readBit p) :
    execPack { s with bits := m } = .next { s.packed.report .noFault with bits := m } := by
  have hL' : State.bitLength { s with bits := m } ≤ 2040 := hL
  rw [execPack_succeeds hL', State.packed_withBits h]
  rfl

/-! ### The statements -/

/-- Settles O9: what `PACK` writes is the frame of its operand, and a successful end adds `STATUS` only. -/
theorem packWritesTheFrameAndLeavesTheRest : Obligations.PackWritesTheFrameAndLeavesTheRest := by
  intro s hL
  have hlen : (packFrame s.bitOperand).length = 1 + byteCountOf s.bitLength := by
    rw [length_packFrame, s.length_bitOperand, Nat.add_comm]
  have hop : s.bitOperand.length ≤ 2040 := s.length_bitOperand.trans_le hL
  refine ⟨packFrame s.bitOperand, s.packed.report .noFault, pack_of_length_le hop, hlen,
    (exec_pack s).trans (execPack_succeeds hL), fun a ha => s.packFrame_getElem? ha, fun a ha => ?_, ?_, rfl⟩
  · exact s.readByte_packed_above (hlen ▸ ha)
  · rw [hlen]
    exact State.toNat_nbytes_packed hL

/-- Settles O13: the check is on 2040 only, and the count is 1 to 250 exactly for the protocol's lengths. -/
theorem protocolLengthsPackWithoutFault : Obligations.ProtocolLengthsPackWithoutFault := by
  intro s
  have hcount := byteCountOf_protocol_iff s.bitLength
  refine ⟨fun hr => ?_, fun hr hL => ?_⟩
  · have hr' := s.inProtocolRange_iff.1 hr
    have hL : s.bitLength ≤ 2040 := by omega
    refine ⟨_, (exec_pack s).trans (execPack_succeeds hL), rfl, ?_⟩
    rw [State.readByte_report, State.toNat_readByte_packed_zero hL]
    exact hcount.2 hr'
  · have hr' := mt s.inProtocolRange_iff.2 (Bool.eq_false_iff.1 hr)
    refine ⟨_, (exec_pack s).trans (execPack_succeeds hL), rfl, ?_⟩
    rw [State.readByte_report, State.toNat_readByte_packed_zero hL]
    omega

/-- Settles O14: the last data byte's lanes from `NBITS mod 8` on are positions from `NBITS` on, and the operand has none
of the cells there. -/
theorem packZeroesPaddingAndReadsNoLeftover : Obligations.PackZeroesPaddingAndReadsNoLeftover := by
  intro s hL
  refine ⟨_, (exec_pack s).trans (execPack_succeeds hL),
    fun h8 _ hi hi8 => s.readByte_packed_last_padding h8 hi hi8, fun m hm => ?_⟩
  rw [exec_pack]
  exact execPack_withBits hL hm

/-- Settles O15: neither length wraps below the limit, and an overflow writes `STATUS` only. -/
theorem packLengthOfTheResult : Obligations.PackLengthOfTheResult := by
  intro s
  rcases Nat.lt_or_ge 2040 s.nbits.toNat with h | h
  · exact ⟨_, (exec_pack s).trans (execPack_overflow h), fun h' => absurd h (Nat.not_lt.2 h'), fun _ => ⟨rfl, rfl, rfl⟩⟩
  · refine ⟨_, (exec_pack s).trans (execPack_succeeds h), fun _ => ⟨rfl, State.toNat_nbytes_packed h, ?_⟩,
      fun h' => absurd h' (Nat.not_lt.2 h)⟩
    rw [State.readByte_report, State.toNat_readByte_packed_zero h, State.report_nbytes, State.toNat_nbytes_packed h,
      Nat.add_sub_cancel_left]

/-- Settles O16: the two sides of the one check `PACK` makes. -/
theorem packOverflowsExactlyAbove2040 : Obligations.PackOverflowsExactlyAbove2040 :=
  fun s => ⟨maxBits_lt_iff _, fun h => (exec_pack s).trans (execPack_overflow h),
    fun h => ⟨_, (exec_pack s).trans (execPack_succeeds h), rfl⟩⟩

/-- Settles O17: with `NBITS` 0 the count is 0, no data byte follows it, and no position lies below `NBITS`. -/
theorem packOfTheEmptySequence : Obligations.PackOfTheEmptySequence := by
  intro s h0
  have hl : s.bitLength = 0 := congrArg BitVec.toNat h0
  have hL : s.bitLength ≤ 2040 := hl.trans_le (Nat.zero_le _)
  have hc : byteCountOf s.bitLength = 0 := congrArg byteCountOf hl
  have hn : s.packed.nbytes = 1 := by rw [s.packed_nbytes, hc]; rfl
  refine ⟨_, (exec_pack s).trans (execPack_succeeds hL), ?_, hn, fun a ha => ?_, ?_, fun m => ?_⟩
  · rw [State.readByte_report, s.readByte_packed_zero, hc]
    rfl
  · exact s.readByte_packed_above (hc ▸ ha)
  · rw [← hn]
    rfl
  · rw [exec_pack]
    exact execPack_withBits hL fun p hp => absurd (hl ▸ hp) (Nat.not_lt_zero p)

end Sys2Proof.Machine
end

section
/-! ## Proofs: UNPACK

The sequence of a frame, its cells in `BITS`, and that neither the bytes after the frame nor their number enter it. The
statements of 41_unpack.md are settled from these. -/

namespace Sys2Proof.Machine

/-! ### The sequence of a frame -/

theorem unpack_of_length_eq {n : Byte} {d : List Byte} (h : d.length = n.toNat) :
    unpack (n :: d) = some (unpackData d) := if_pos h

/-- The frame in `BYTES` is the count and the data bytes (41_unpack.md R80). -/
theorem State.frame_eq_cons_dataOperand (s : State) :
    (List.range (1 + s.byteCount)).map s.readByte = s.readByte 0 :: s.dataOperand := by
  simp [List.range_add, State.dataOperand, Function.comp_def]

/-- The sequence of the frame in `BYTES` (41_unpack.md R82). -/
theorem State.unpack_frame (s : State) :
    unpack ((List.range (1 + s.byteCount)).map s.readByte) = some (unpackData s.dataOperand) := by
  rw [s.frame_eq_cons_dataOperand, unpack_of_length_eq s.length_dataOperand]

theorem State.length_unpackData_dataOperand (s : State) : (unpackData s.dataOperand).length = 8 * s.byteCount := by
  rw [length_unpackData, s.length_dataOperand]

/-- `BITS[q]` is entry `q` of the sequence (41_unpack.md R80). -/
theorem State.unpackData_getElem? (s : State) {q : Nat} (h : q < (unpackData s.dataOperand).length) :
    (unpackData s.dataOperand)[q]? = some (s.unpacked.readBit q) := by
  rw [State.unpacked, State.readBit_setNbits, State.readBit_storeBits, dif_pos h, List.getElem?_eq_getElem h]

/-- The sequence's length does not wrap in `NBITS` (42_laws_and_pseudo_ops.md R93). -/
theorem State.toNat_nbits_unpacked (s : State) : s.unpacked.nbits.toNat = 8 * s.byteCount := by
  have := s.byteCount_le
  rw [s.unpacked_nbits, toNat_half (by omega)]

/-- A frame with no data byte gives no boolean (41_unpack.md R85). -/
theorem State.unpacked_of_byteCount_zero {s : State} (h : s.byteCount = 0) :
    s.unpacked = { s with nbits := 0 } := by
  have hd : unpackData s.dataOperand = [] := by
    rw [← List.length_eq_zero_iff, s.length_unpackData_dataOperand, h]
  rw [State.unpacked, hd, h, State.storeBits, Memory.writePrefix_nil]
  rfl

/-! ### Bytes after the frame -/

/-- The data bytes are a function of the cells up to the count (41_unpack.md R80). -/
theorem State.dataOperand_congr {s s' : State} (h : ∀ i, i ≤ s.byteCount → s.readByte i = s'.readByte i) :
    s.dataOperand = s'.dataOperand := by
  have hN : s.byteCount = s'.byteCount := congrArg BitVec.toNat (h 0 (Nat.zero_le _))
  rw [State.dataOperand, State.dataOperand, ← hN]
  refine List.map_congr_left fun k hk => h _ ?_
  have := List.mem_range.1 hk
  omega

/-- `NBYTES` is checked only: another value that covers the frame gives the same result (41_unpack.md R83). -/
theorem execUnpack_withNbytes {s : State} {v : Half} (hv : 1 + s.byteCount ≤ v.toNat) :
    execUnpack { s with nbytes := v } = .next { s.unpacked.report .noFault with nbytes := v } :=
  execUnpack_succeeds (s := { s with nbytes := v }) hv

/-- Other contents of `BYTES` that agree on the frame give the same result, and stay as they are (41_unpack.md R83). -/
theorem execUnpack_withBytes {s : State} {m : Memory Byte} (hA : 1 + s.byteCount ≤ s.available)
    (h : ∀ i, i ≤ s.byteCount → State.readByte { s with bytes := m } i = s.readByte i) :
    execUnpack { s with bytes := m } = .next { s.unpacked.report .noFault with bytes := m } := by
  have hN : State.byteCount { s with bytes := m } = s.byteCount := congrArg BitVec.toNat (h 0 (Nat.zero_le _))
  have hop : State.dataOperand { s with bytes := m } = s.dataOperand := State.dataOperand_congr (hN ▸ h)
  have hA' : 1 + State.byteCount { s with bytes := m } ≤ State.available { s with bytes := m } := hN ▸ hA
  rw [execUnpack_succeeds hA', State.unpacked, hop, hN]
  rfl

/-! ### The statements -/

/-- Settles O18: what `UNPACK` writes is the sequence of the frame, and a successful end adds `STATUS` only. -/
theorem unpackWritesTheSequenceAndLeavesTheRest : Obligations.UnpackWritesTheSequenceAndLeavesTheRest := by
  intro s hA
  have hlen := s.length_unpackData_dataOperand
  refine ⟨unpackData s.dataOperand, s.unpacked.report .noFault, s.unpack_frame, hlen,
    (exec_unpack s).trans (execUnpack_succeeds hA), fun q hq => s.unpackData_getElem? hq, fun q hq => ?_, ?_, rfl⟩
  · exact s.readBit_unpacked_above (hlen ▸ hq)
  · rw [hlen]
    exact s.toNat_nbits_unpacked

/-- Settles O19: frame byte `1 + q div 8` is data byte `q div 8`, behind the count. -/
theorem unpackFunctionReadsBytesLeastSignificantFirst :
    Obligations.UnpackFunctionReadsBytesLeastSignificantFirst := by
  intro n d hd
  refine ⟨unpackData d, unpack_of_length_eq hd, by rw [length_unpackData, hd], fun q hq => ?_⟩
  rw [unpackData_getElem? d (hd ▸ hq), Nat.add_comm 1, List.getD_cons_succ]

/-- Settles O20: the one check of a whole frame is on `NBYTES`, so every lane of a data byte is a position that comes
out. -/
theorem unpackKeepsEveryBitOfTheFrame : Obligations.UnpackKeepsEveryBitOfTheFrame :=
  fun s hA => ⟨_, (exec_unpack s).trans (execUnpack_succeeds hA), rfl, s.toNat_nbits_unpacked,
    fun _ hq => s.readBit_unpacked hq⟩

/-- Settles O21: the two checks `UNPACK` makes, and what is left when both pass. -/
theorem unpackFaultsExactlyOnShortInput : Obligations.UnpackFaultsExactlyOnShortInput :=
  fun s => ⟨fun h => (exec_unpack s).trans (execUnpack_short (.inl h)),
    fun _ h => (exec_unpack s).trans (execUnpack_short (.inr h)),
    fun _ h => ⟨_, (exec_unpack s).trans (execUnpack_succeeds h), rfl⟩⟩

/-- Settles O22: the lowered `NBYTES` does not wrap and still covers the frame, and the sequence is a function of the
frame's own bytes. -/
theorem unpackIgnoresBytesAfterTheFrame : Obligations.UnpackIgnoresBytesAfterTheFrame := by
  intro s h
  have hA : 1 + s.byteCount ≤ s.available := Nat.le_of_lt h
  have hv : (BitVec.ofNat 16 (1 + s.byteCount)).toNat = 1 + s.byteCount := by
    have := s.byteCount_le
    exact toNat_half (by omega)
  refine ⟨_, (exec_unpack s).trans (execUnpack_succeeds hA), rfl, ?_, fun m hm => ?_⟩
  · rw [exec_unpack]
    exact execUnpack_withNbytes hv.ge
  · rw [exec_unpack]
    exact execUnpack_withBytes hA hm

/-- Settles O23: the frame is whole, and its sequence is empty. -/
theorem unpackOfAZeroByteCount : Obligations.UnpackOfAZeroByteCount := by
  intro s hA h0
  have hN : s.byteCount = 0 := congrArg BitVec.toNat h0
  have hA' : 1 + s.byteCount ≤ s.available := hN ▸ hA
  rw [exec_unpack, execUnpack_succeeds hA', State.unpacked_of_byteCount_zero hN]
  rfl

/-- Settles O24: the sequence's length does not wrap, and a short frame's fault writes `STATUS` only. -/
theorem unpackLengthOfTheResult : Obligations.UnpackLengthOfTheResult := by
  intro s
  rcases Nat.lt_or_ge s.nbytes.toNat (1 + (s.readByte 0).toNat) with h | h
  · exact ⟨_, (exec_unpack s).trans (execUnpack_short (.inr h)), fun h' => absurd h (Nat.not_lt.2 h'),
      fun _ => ⟨rfl, rfl⟩⟩
  · exact ⟨_, (exec_unpack s).trans (execUnpack_succeeds h), fun _ => ⟨rfl, s.toNat_nbits_unpacked⟩,
      fun h' => absurd h' (Nat.not_lt.2 h)⟩

end Sys2Proof.Machine
end

section
/-! ## Proofs: the laws of the frame

Packing and unpacking undo each other, as functions on sequences and frames and as commands of the block between the lines
that load an operand and `UNPACKN`, which cuts the padding off. The statements of 42_laws_and_pseudo_ops.md are settled from
these. -/

namespace Sys2Proof.Machine

/-! ### The functions -/

theorem le_mul_byteCountOf (L : Nat) : L ≤ 8 * byteCountOf L := by
  rw [byteCountOf_eq]; omega

theorem packFrame_eq_cons (bs : List Bool) :
    packFrame bs = BitVec.ofNat 8 (byteCountOf bs.length) :: (List.range (byteCountOf bs.length)).map (packByte bs) := rfl

/-- The data bytes of a frame unpack to the sequence and its padding: both have position `q` in lane `q mod 8` of data byte
`q div 8` (42_laws_and_pseudo_ops.md R90). -/
theorem unpackData_packBytes (bs : List Bool) :
    unpackData ((List.range (byteCountOf bs.length)).map (packByte bs)) =
      bs ++ List.replicate (8 * byteCountOf bs.length - bs.length) false := by
  have hlen := le_mul_byteCountOf bs.length
  refine List.ext_getElem (by simp; omega) fun q hq hq' => ?_
  have hk : q / 8 < byteCountOf bs.length := by
    rw [length_unpackData, List.length_map, List.length_range] at hq
    omega
  rw [← List.getD_eq_getElem _ false hq, ← List.getD_eq_getElem _ false hq', unpackData_getD,
    getD_append_replicate_false, List.getD_eq_getElem _ _ (by simpa using hk), List.getElem_map, List.getElem_range,
    packByte_lane _ _ (Nat.mod_lt q (by decide)), Nat.div_add_mod]

/-- Data byte `k` of an unpacked frame is the byte it was unpacked from (42_laws_and_pseudo_ops.md R91). -/
theorem packByte_unpackData (d : List Byte) (k : Nat) : packByte (unpackData d) k = d.getD k 0 := by
  refine byte_ext fun i hi => ?_
  rw [packByte_lane _ _ hi, unpackData_getD, show (8 * k + i) / 8 = k by omega, show (8 * k + i) % 8 = i by omega]

/-- Whole data bytes need no byte for padding (30_encoding.md R52). -/
theorem byteCountOf_mul_eight (n : Nat) : byteCountOf (8 * n) = n := by
  rw [byteCountOf_eq]; omega

/-- Packing an unpacked frame gives the count and the data bytes back. -/
theorem packFrame_unpackData (d : List Byte) : packFrame (unpackData d) = BitVec.ofNat 8 d.length :: d := by
  rw [packFrame_eq_cons, length_unpackData, byteCountOf_mul_eight]
  congr 1
  refine List.ext_getElem (by simp) fun k hk hk' => ?_
  rw [List.getElem_map, List.getElem_range, packByte_unpackData, List.getD_eq_getElem _ _ hk']

/-- The count of a whole frame is its number of data bytes. -/
theorem packFrame_unpackData_of_count {n : Byte} {d : List Byte} (h : d.length = n.toNat) :
    packFrame (unpackData d) = n :: d := by
  rw [packFrame_unpackData, h, BitVec.ofNat_toNat, BitVec.setWidth_eq]

/-- The sequence of a whole frame is never longer than `PACK` accepts (42_laws_and_pseudo_ops.md R91). -/
theorem pack_unpackData {n : Byte} {d : List Byte} (h : d.length = n.toNat) : pack (unpackData d) = some (n :: d) := by
  have hL : (unpackData d).length ≤ 2040 := by
    have := n.isLt
    rw [length_unpackData]
    omega
  rw [pack_of_length_le hL, packFrame_unpackData_of_count h]

/-- The count of a packed sequence does not wrap, so it is the number of data bytes that follow it. -/
theorem unpack_packFrame {bs : List Bool} (h : bs.length ≤ 2040) :
    unpack (packFrame bs) = some (bs ++ List.replicate (8 * byteCountOf bs.length - bs.length) false) := by
  have hn : (BitVec.ofNat 8 (byteCountOf bs.length)).toNat = byteCountOf bs.length :=
    toNat_byte (Nat.lt_succ_of_le (byteCountOf_le h))
  rw [packFrame_eq_cons, unpack_of_length_eq (by simp [hn]), unpackData_packBytes]

/-! ### One command after the other -/

/-- `UNPACK` leaves the sequence it writes as the operand of a `PACK` (41_unpack.md R88). -/
theorem State.bitOperand_unpacked (s : State) : s.unpacked.bitOperand = unpackData s.dataOperand := by
  have hL : s.unpacked.bitLength = 8 * s.byteCount := s.toNat_nbits_unpacked
  refine List.ext_getElem (by simp [hL]) fun q hq hq' => ?_
  rw [← Option.some_inj, ← List.getElem?_eq_getElem hq', s.unpackData_getElem? hq']
  simp [State.bitOperand]

/-- Every position an `UNPACK` after `PACK` writes holds the entry of the packed sequence, and `false` past its end
(42_laws_and_pseudo_ops.md R90). -/
theorem State.readBit_unpacked_packed {s : State} (hL : s.bitLength ≤ 2040) {p : Nat}
    (hp : p < 8 * byteCountOf s.bitLength) : s.packed.unpacked.readBit p = s.bitOperand.getD p false := by
  have hN : s.packed.byteCount = byteCountOf s.bitLength := State.toNat_readByte_packed_zero hL
  rw [State.readBit_unpacked _ (hN ▸ hp), s.readByte_packed_data (by omega),
    packByte_lane _ _ (Nat.mod_lt p (by decide)), Nat.div_add_mod]

/-! ### Lines -/

theorem actAll_cons_of_next {a : HostAction} {rest : List HostAction} {s t : State} (h : act a s = .next t) :
    actAll (a :: rest) s = actAll rest t := by
  simp only [actAll, h, andThen]

theorem runLines_cons_of_next {l : Line} {rest : List Line} {s t : State} (h : runLine l s = .next t) :
    runLines (l :: rest) s = runLines rest t := by
  simp only [runLines, h, andThen]

theorem runLines_singleton (l : Line) (s : State) : runLines [l] s = runLine l s := by
  simp only [runLines, andThen]
  cases runLine l s <;> rfl

theorem act_writeCmd_encode (i : Instr) (s : State) : act (writeCmd (encode i)) s = exec i s := by
  rw [writeCmd, act_writeCmd, command_of_decode (decode_encode i)]

theorem runLine_pack (s : State) : runLine .pack s = execPack s := by
  rw [runLine, lineActions, actAll_singleton, act_writeCmd_encode, exec_pack]

theorem runLine_unpack (s : State) : runLine .unpack s = execUnpack s := by
  rw [runLine, lineActions, actAll_singleton, act_writeCmd_encode, exec_unpack]

/-- A loaded sequence is the operand of a `PACK` (30_encoding.md R60). -/
theorem runLine_ldBits_bitOperand {bs : List Bool} (h : bs.length ≤ 2040) (s : State) :
    ∃ t, runLine (.ldBits bs) s = .next t ∧ t.bitOperand = bs := by
  obtain ⟨m, hm, hr⟩ := runLine_ldBits h s
  refine ⟨_, hm, List.ext_getElem ?_ fun p hp hp' => ?_⟩
  · rw [State.length_bitOperand, State.bitLength, toNat_half (by omega)]
  · simp [State.bitOperand, State.readBit_eq_getD, hr, hp']

/-- A loaded frame is what an `UNPACK` finds, exactly available (30_encoding.md R60). -/
theorem runLine_ldBytes_dataOperand {n : Byte} {d : List Byte} (h : d.length = n.toNat) (s : State) :
    ∃ t, runLine (.ldBytes (n :: d)) s = .next t ∧ t.available = 1 + n.toNat ∧ t.byteCount = n.toNat ∧
      t.dataOperand = d := by
  have hlen : (n :: d).length = 1 + n.toNat := by rw [List.length_cons, h, Nat.add_comm]
  have := n.isLt
  obtain ⟨m, hm, hr⟩ := runLine_ldBytes (hs := n :: d) (by omega) s
  have hN : State.byteCount { s with bytes := m, nbytes := BitVec.ofNat 16 (n :: d).length } = n.toNat := by
    simp [State.byteCount, State.readByte_eq_getD, hr]
  refine ⟨_, hm, ?_, hN, List.ext_getElem (by rw [State.length_dataOperand, hN, h]) fun k hk hk' => ?_⟩
  · rw [State.available, hlen, toNat_half (by omega)]
  · simp [State.dataOperand, State.readByte_eq_getD, hr, Nat.add_comm 1, hk']

/-! ### `UNPACKN` -/

/-- `UNPACKN` is `UNPACK`, the read of `STATUS` and the truncation the state then calls for (30_encoding.md R61). -/
theorem runLine_unpackN {s t : State} (h : execUnpack s = .next t) (c : Half) :
    runLine (.unpackN c) s =
      actAll (truncation c (t.returnRead (t.readOf .status))) (t.returnRead (t.readOf .status)) := by
  have hu : act (writeCmd (encode .unpack)) s = .next t := by rw [act_writeCmd_encode, exec_unpack, h]
  have hr : act (.read .status) t = .next (t.returnRead (t.readOf .status)) := act_read rfl t
  have hur : actAll [writeCmd (encode .unpack), .read .status] s = .next (t.returnRead (t.readOf .status)) := by
    rw [actAll_cons_of_next hu, actAll_singleton, hr]
  have hact : unpackNActions c s =
      [writeCmd (encode .unpack), .read .status] ++ truncation c (t.returnRead (t.readOf .status)) := by
    simp only [unpackNActions, hur]
  rw [runLine, lineActions, hact, actAll_append, hur, andThen]

/-- Reading `STATUS` after a command keeps the code of its outcome (60_exceptions.md R120, 20_memory.md R38). -/
theorem State.faultField_returnRead_report (s : State) (f : FaultCode) (r : ReadRecord) :
    ((s.report f).returnRead r).faultField = f.code := by
  cases f <;> rfl

theorem actAll_truncation_of_noFault {s : State} (h : s.faultField = 0) (c : Half) :
    actAll (truncation c s) s = .next (s.setNbits (BitVec.ofNat 16 (min c.toNat s.nbits.toNat))) := by
  rw [truncation, if_pos h, actAll_singleton, act_writeNbits]

theorem actAll_truncation_of_fault {s : State} (h : s.faultField ≠ 0) (c : Half) :
    actAll (truncation c s) s = .next s := by
  rw [truncation, if_neg h, actAll]

/-- What `UNPACKN` leaves of a whole frame: the result of `UNPACK`, with `NBITS` lowered to the count. -/
theorem runLine_unpackN_succeeds {s : State} (h : 1 + s.byteCount ≤ s.available) (c : Half) :
    runLine (.unpackN c) s = .next { s.unpacked with
      status := 0x00, nbits := BitVec.ofNat 16 (min c.toNat (8 * s.byteCount)),
      reads := s.reads ++ [⟨.status, .byte 0x00⟩] } := by
  rw [runLine_unpackN (execUnpack_succeeds h),
    actAll_truncation_of_noFault (s.unpacked.faultField_returnRead_report .noFault _), State.returnRead_nbits,
    State.report_nbits, s.toNat_nbits_unpacked]
  rfl

/-- After a fault `UNPACKN` changes nothing further (42_laws_and_pseudo_ops.md R92). -/
theorem runLine_unpackN_short {s : State} (h : s.available < 1 + s.byteCount) (c : Half) :
    runLine (.unpackN c) s = .next { s with status := 0x01, reads := s.reads ++ [⟨.status, .byte 0x01⟩] } := by
  rw [runLine_unpackN (execUnpack_short (.inr h))]
  refine actAll_truncation_of_fault ?_ c
  rw [State.faultField_returnRead_report]
  decide

/-- `UNPACKN` after `PACK` finds the frame `PACK` has written, exactly available (42_laws_and_pseudo_ops.md R92). -/
theorem runLine_unpackN_packed {s : State} (hL : s.bitLength ≤ 2040) (c : Half) :
    runLine (.unpackN c) (s.packed.report .noFault) = .next { s.packed.unpacked with
      status := 0x00, nbits := BitVec.ofNat 16 (min c.toNat (8 * byteCountOf s.bitLength)),
      reads := s.reads ++ [⟨.status, .byte 0x00⟩] } := by
  have hN : (s.packed.report .noFault).byteCount = byteCountOf s.bitLength := State.toNat_readByte_packed_zero hL
  have hA : (s.packed.report .noFault).available = 1 + byteCountOf s.bitLength := State.toNat_nbytes_packed hL
  rw [runLine_unpackN_succeeds (by omega), hN]
  rfl

/-! ### The statements -/

/-- Settles O44: position `q` goes into lane `q mod 8` of data byte `q div 8` and comes out of it. -/
theorem unpackOfPackIsTheSequencePadded : Obligations.UnpackOfPackIsTheSequencePadded :=
  fun bs hL => ⟨packFrame bs, _, pack_of_length_le hL, unpack_packFrame hL, rfl, List.take_left⟩

/-- Settles O45: every lane of a data byte is a position of the unpacked sequence. -/
theorem packOfUnpackIsTheFrame : Obligations.PackOfUnpackIsTheFrame :=
  fun _ d hd => ⟨unpackData d, unpack_of_length_eq hd, pack_unpackData hd⟩

/-- Settles O38: the two outcomes of `UNPACK`, and the truncation that follows the first of them only. -/
theorem unpackNTruncatesToTheCount : Obligations.UnpackNTruncatesToTheCount := by
  refine fun c s => ⟨fun h => ⟨_, runLine_unpackN_succeeds h c, ?_, fun q hq => s.readBit_unpacked hq,
    fun q hq => s.readBit_unpacked_above hq, rfl⟩, fun h => runLine_unpackN_short h c⟩
  have := s.byteCount_le
  exact toNat_half (by omega)

/-- Settles O46: `PACK` finds the loaded sequence and `UNPACKN` its frame, and the truncation is to the sequence's length,
which is at most the frame's `8N` positions. -/
theorem blockReturnsThePackedSequence : Obligations.BlockReturnsThePackedSequence := by
  intro bs s hbs
  obtain ⟨t, hload, rfl⟩ := runLine_ldBits_bitOperand hbs s
  rw [t.length_bitOperand] at hbs
  have hpack : runLine .pack t = .next (t.packed.report .noFault) := (runLine_pack t).trans (execPack_succeeds hbs)
  have hrun := runLine_unpackN_packed hbs (BitVec.ofNat 16 t.bitOperand.length)
  rw [← runLines_singleton, ← runLines_cons_of_next hpack, ← runLines_cons_of_next hload] at hrun
  refine ⟨packFrame t.bitOperand, _, pack_of_length_le (t.length_bitOperand.trans_le hbs), hrun, rfl, ?_, ?_,
    fun p hp => ?_, fun a ha => t.packFrame_getElem? ha⟩
  · have hle : t.bitLength ≤ 8 * byteCountOf t.bitLength := le_mul_byteCountOf _
    have hfits : (BitVec.ofNat 16 t.bitLength).toNat = t.bitLength := toNat_half (by omega)
    rw [t.length_bitOperand, hfits, Nat.min_eq_left hle, hfits]
  · rw [length_packFrame, t.length_bitOperand, Nat.add_comm]
    exact State.toNat_nbytes_packed hbs
  · rw [t.length_bitOperand] at hp
    exact State.readBit_unpacked_packed hbs hp

/-- Settles O47: `UNPACK` finds the loaded frame, and `PACK` the sequence that packs to it. -/
theorem blockReturnsTheUnpackedFrame : Obligations.BlockReturnsTheUnpackedFrame := by
  intro n d s hd
  obtain ⟨t, hload, hA, hN, rfl⟩ := runLine_ldBytes_dataOperand hd s
  have hL : t.unpacked.bitLength = 8 * n.toNat := hN ▸ t.toNat_nbits_unpacked
  have hmax : t.unpacked.bitLength ≤ 2040 := by
    have := n.isLt
    omega
  have hunpack : runLine .unpack t = .next (t.unpacked.report .noFault) :=
    (runLine_unpack t).trans (execUnpack_succeeds (hN.symm ▸ hA.ge))
  have hpack : runLine .pack (t.unpacked.report .noFault) = .next (t.unpacked.packed.report .noFault) :=
    (runLine_pack _).trans (execPack_succeeds (s := t.unpacked.report .noFault) hmax)
  have hframe : packFrame t.unpacked.bitOperand = n :: t.dataOperand := by
    rw [t.bitOperand_unpacked, packFrame_unpackData_of_count hd]
  refine ⟨t.unpacked.packed.report .noFault, ?_, rfl, ?_, hL, fun a ha => ?_⟩
  · rw [runLines_cons_of_next hload, runLines_cons_of_next hunpack, runLines_singleton, hpack]
  · rw [State.report_nbytes, State.toNat_nbytes_packed hmax, hL, byteCountOf_mul_eight]
  · rw [← hframe]
    refine t.unpacked.packFrame_getElem? ?_
    rw [hframe, List.length_cons, hd]
    omega

end Sys2Proof.Machine
end

section
/-! ## Proofs: exceptions

The code `STATUS` holds after a command, that a fault writes nothing else, and that no command reads what `STATUS` held. The
statements of 60_exceptions.md are settled from these. -/

namespace Sys2Proof.Machine

/-! ### The code of an outcome -/

/-- `STATUS` as 60_exceptions.md R120 numbers the outcomes. -/
@[simp] theorem FaultCode.statusByte_noFault : FaultCode.noFault.statusByte = 0x00 := rfl
@[simp] theorem FaultCode.statusByte_frameError : FaultCode.frameError.statusByte = 0x01 := rfl
@[simp] theorem FaultCode.statusByte_packOverflow : FaultCode.packOverflow.statusByte = 0x02 := rfl
@[simp] theorem FaultCode.statusByte_illegalOp : FaultCode.illegalOp.statusByte = 0x03 := rfl

theorem State.faulted_report_noFault (s : State) : (s.report .noFault).faulted = false := rfl

/-- A command that ends with a fault has reported it and done nothing else (60_exceptions.md R125). -/
theorem eq_report_of_faulted {c : Byte} {s t : State} (h : command c s = .next t) (hf : t.faulted = true) :
    ∃ f, t = s.report f := by
  rcases command_cases c s with ⟨-, -, e⟩ | ⟨-, -, e⟩ | ⟨-, -, e⟩ | ⟨-, -, e⟩ | ⟨-, -, e⟩ <;> rw [e] at h <;> cases h
  · exact ⟨.packOverflow, rfl⟩
  · rw [State.faulted_report_noFault] at hf
    cases hf
  · exact ⟨.frameError, rfl⟩
  · rw [State.faulted_report_noFault] at hf
    cases hf
  · exact ⟨.illegalOp, rfl⟩

/-- The check for an empty input only keeps `BYTES[0]` unread: such an input is too short for any count
(60_exceptions.md R124). -/
theorem State.short_iff (s : State) :
    s.available = 0 ∨ s.available < 1 + s.byteCount ↔ s.available < 1 + s.byteCount := by
  omega

/-! ### The value `STATUS` held before -/

/-- Reporting an outcome overwrites whatever `STATUS` held (60_exceptions.md R126). -/
theorem State.report_withStatus (s : State) (v : Byte) (f : FaultCode) :
    State.report { s with status := v } f = s.report f := rfl

/-- What `PACK` writes does not depend on `STATUS` (40_pack.md R71). -/
theorem State.packed_withStatus (s : State) (v : Byte) :
    State.packed { s with status := v } = { s.packed with status := v } := rfl

/-- What `UNPACK` writes does not depend on `STATUS` (41_unpack.md R80). -/
theorem State.unpacked_withStatus (s : State) (v : Byte) :
    State.unpacked { s with status := v } = { s.unpacked with status := v } := rfl

theorem execPack_withStatus (s : State) (v : Byte) : execPack { s with status := v } = execPack s := by
  rcases Nat.lt_or_ge 2040 s.bitLength with h | h
  · rw [execPack_overflow h, execPack_overflow (s := { s with status := v }) h, State.report_withStatus]
  · rw [execPack_succeeds h, execPack_succeeds (s := { s with status := v }) h, State.packed_withStatus,
      State.report_withStatus]

theorem execUnpack_withStatus (s : State) (v : Byte) : execUnpack { s with status := v } = execUnpack s := by
  rcases Nat.lt_or_ge s.available (1 + s.byteCount) with h | h
  · rw [execUnpack_short (.inr h), execUnpack_short (s := { s with status := v }) (.inr h), State.report_withStatus]
  · rw [execUnpack_succeeds h, execUnpack_succeeds (s := { s with status := v }) h, State.unpacked_withStatus,
      State.report_withStatus]

theorem command_withStatus (c : Byte) (s : State) (v : Byte) : command c { s with status := v } = command c s := by
  cases hd : decode c with
  | instr i =>
    rw [command_of_decode hd, command_of_decode hd]
    cases i with
    | pack => exact execPack_withStatus s v
    | unpack => exact execUnpack_withStatus s v
  | illegal w =>
    simp only [command, hd, raise, State.report_withStatus]

/-! ### The statements -/

/-- Settles O25: the conditions of a command's five ends exclude one another, and ends with the same code are those of
success. -/
theorem everyCommandReportsItsOutcome : Obligations.EveryCommandReportsItsOutcome := by
  intro c s
  rw [act_writeCmd]
  rcases command_cases c s with ⟨rfl, h, e⟩ | ⟨rfl, h, e⟩ | ⟨rfl, h, e⟩ | ⟨rfl, h, e⟩ | ⟨h1, h2, e⟩ <;>
    refine ⟨_, e, ?_⟩
  · simpa [State.bitLength] using h
  · simpa [State.bitLength] using h
  · have hshort : s.nbytes.toNat < 1 + (s.readByte 0).toNat := s.short_iff.1 h
    simp [hshort]
  · have hwhole : 1 + (s.readByte 0).toNat ≤ s.nbytes.toNat := h
    have hsome : s.nbytes.toNat ≠ 0 := by omega
    simp [hwhole, hsome]
  · simp only [State.report_status, FaultCode.statusByte_illegalOp, h1, h2, false_and, or_self, ne_eq, not_false_eq_true,
      and_self]
    decide

/-- Settles O26: a state that shows a fault comes from reporting it only, and no code reaches bits 7:2. -/
theorem faultingCommandWritesOnlyStatus : Obligations.FaultingCommandWritesOnlyStatus := by
  intro c s t h hf
  obtain ⟨f, rfl⟩ := eq_report_of_faulted h hf
  exact ⟨rfl, f.reserved_zero⟩

/-- Settles O27: no command reads `STATUS`, and each ends by reporting its own outcome. -/
theorem statusIsNotStickyAndNotRead : Obligations.StatusIsNotStickyAndNotRead := by
  intro c s v
  obtain ⟨t, h⟩ := command_completes c s
  refine ⟨t, (act_writeCmd c s).trans h, ?_⟩
  rw [act_writeCmd, command_withStatus, h]

end Sys2Proof.Machine
end

section
/-! ## Proofs: reset and hazards

What the host's own discipline decides: a command whose operand cells are written meets no free value, a run is its steps, and
the `STATUS` reads of a run tell whether it has gone wrong. The statements of 70_reset_and_hazards.md are settled from these. -/

namespace Sys2Proof.Machine

/-! ### Written cells in another epoch -/

/-- A written cell holds its value in every epoch (10_state.md R26). -/
theorem State.readBit_withEpoch {s : State} {p : Nat} (h : s.bitWritten p = true) (e : Nat) :
    State.readBit { s with epoch := e } p = s.readBit p := by
  obtain ⟨b, hb⟩ := Option.isSome_iff_exists.1 h
  simp only [State.readBit_eq_getD, hb, Option.getD_some]

theorem State.readByte_withEpoch {s : State} {i : Nat} (h : s.byteWritten i = true) (e : Nat) :
    State.readByte { s with epoch := e } i = s.readByte i := by
  obtain ⟨v, hv⟩ := Option.isSome_iff_exists.1 h
  simp only [State.readByte_eq_getD, hv, Option.getD_some]

/-- The length is checked in any epoch alike, and the frame is a function of written cells. -/
theorem execPack_withEpoch {s : State} (h : s.packOperandWritten) (e : Nat) :
    ∃ t, execPack s = .next t ∧ execPack { s with epoch := e } = .next { t with epoch := e } := by
  rcases Nat.lt_or_ge 2040 s.bitLength with hL | hL
  · exact ⟨_, execPack_overflow hL, execPack_overflow (s := { s with epoch := e }) hL⟩
  · have hop : State.bitOperand { s with epoch := e } = s.bitOperand :=
      State.bitOperand_congr rfl fun p hp => State.readBit_withEpoch (h p hp) e
    refine ⟨_, execPack_succeeds hL, (execPack_succeeds (s := { s with epoch := e }) hL).trans ?_⟩
    rw [State.packed, hop]
    rfl

/-- With a byte available the count is a written cell; the bytes it calls for are read only when all of them are
available, and then they are written too. -/
theorem execUnpack_withEpoch {s : State} (h : s.unpackOperandWritten) (e : Nat) :
    ∃ t, execUnpack s = .next t ∧ execUnpack { s with epoch := e } = .next { t with epoch := e } := by
  by_cases h0 : s.available = 0
  · exact ⟨_, execUnpack_short (.inl h0), execUnpack_short (s := { s with epoch := e }) (.inl h0)⟩
  have hb : ∀ i, i < min s.available (1 + s.byteCount) → State.readByte { s with epoch := e } i = s.readByte i :=
    fun i hi => State.readByte_withEpoch (h i hi) e
  have hN : State.byteCount { s with epoch := e } = s.byteCount := congrArg BitVec.toNat (hb 0 (by omega))
  rcases Nat.lt_or_ge s.available (1 + s.byteCount) with hA | hA
  · exact ⟨_, execUnpack_short (.inr hA), execUnpack_short (s := { s with epoch := e }) (.inr (hN ▸ hA))⟩
  · have hop : State.dataOperand { s with epoch := e } = s.dataOperand :=
      State.dataOperand_congr fun i hi => hb i (by omega)
    refine ⟨_, execUnpack_succeeds hA, (execUnpack_succeeds (s := { s with epoch := e }) (hN ▸ hA)).trans ?_⟩
    rw [State.unpacked, hop, hN]
    rfl

/-! ### Steps of a run -/

/-- A step performs the next action and leaves the ones after it to come (20_memory.md R40). -/
theorem step_withActions (a : HostAction) (rest : List HostAction) (s : State) :
    step { s with actions := a :: rest } = withActionsTo rest (act a s) :=
  (step_of_actions rfl).trans (act_withActions a rest s)

theorem actAll_cons_of_refused {a : HostAction} {rest : List HostAction} {s : State} {r : Refusal}
    (h : act a s = .refused r) : actAll (a :: rest) s = .refused r := by
  simp only [actAll, h, andThen]

theorem statesAfter_cons_of_next {a : HostAction} {s t : State} (h : act a s = .next t) (rest : List HostAction) :
    statesAfter (a :: rest) s = t :: statesAfter rest t := by
  simp only [statesAfter, h]

/-! ### The `STATUS` reads of a run -/

theorem statusReads_cons_of_next {a : HostAction} {s t : State} (h : act a s = .next t) (b : Bool)
    (rest : List HostAction) :
    statusReads b (a :: rest) s =
      (if b = true ∧ a = .read .status then [s.status] else []) ++ statusReads (b || a.isCommand) rest t := by
  simp only [statusReads, h]

/-- From the first command on every `STATUS` read counts (log 10). -/
theorem statusReads_command {c : Byte} {s t : State} (h : command c s = .next t) (b : Bool) (rest : List HostAction) :
    statusReads b (.write .cmd (.byte c) :: rest) s = statusReads true rest t := by
  rw [statusReads_cons_of_next ((act_writeCmd c s).trans h), if_neg (by simp), HostAction.isCommand, Bool.or_true]
  rfl

theorem statusReads_readStatus (b : Bool) (rest : List HostAction) (s : State) :
    statusReads b (.read .status :: rest) s =
      (if b = true then [s.status] else []) ++ statusReads b rest (s.returnRead (s.readOf .status)) := by
  rw [statusReads_cons_of_next (act_read rfl s)]
  simp only [and_true, HostAction.isCommand, Bool.or_false]

/-- A `STATUS` read among the host's reads returned a nonzero `FAULT` (70_reset_and_hazards.md R152). -/
def ShowsFault (rs : List ReadRecord) : Prop :=
  ∃ v : Byte, (⟨.status, .byte v⟩ : ReadRecord) ∈ rs ∧ faultBits v ≠ 0

theorem showsFault_append (xs ys : List ReadRecord) : ShowsFault (xs ++ ys) ↔ ShowsFault xs ∨ ShowsFault ys := by
  simp only [ShowsFault, List.mem_append, or_and_right, exists_or]

/-- Only a read that names `STATUS` shows its `FAULT`. -/
theorem showsFault_readAt (a : HostAction) (s : State) :
    ShowsFault (a.readAt s) ↔ a = .read .status ∧ s.faultField ≠ 0 := by
  cases a with
  | read l => cases l <;> simp [HostAction.readAt, ShowsFault, State.readOf, State.look, State.faultField]
  | write l v => simp [HostAction.readAt, ShowsFault]
  | reset => simp [HostAction.readAt, ShowsFault]

/-- Only a command raises a fault: any other action keeps `STATUS` or, as the reset event does, clears it. -/
theorem faultField_of_not_isCommand {a : HostAction} {s t : State} (h : act a s = .next t) (ha : a.isCommand = false)
    (hs : s.faultField = 0) : t.faultField = 0 := by
  rcases act_cases h with ⟨c, rfl, -⟩ | ⟨-, hst | hst, -⟩
  · cases ha
  · rw [State.faultField, hst]
    exact hs
  · rw [State.faultField, hst]
    rfl

/-- A completed run's counted `STATUS` reads hold a fault exactly when its reads show one. Those that do not count come while
no command of the run has been performed, and show `FAULT` 0 when the run begins so. -/
theorem exists_reads_of_actAll {b : Bool} {as : List HostAction} {s t : State} (hs : b = false → s.faultField = 0)
    (h : actAll as s = .next t) :
    ∃ new, t.reads = s.reads ++ new ∧ ((∃ v ∈ statusReads b as s, faultBits v ≠ 0) ↔ ShowsFault new) := by
  induction as generalizing b s with
  | nil =>
    cases h
    exact ⟨[], (List.append_nil _).symm, by simp [statusReads, ShowsFault]⟩
  | cons a as ih =>
    cases ha : act a s with
    | fault r => cases r
    | refused r =>
      rw [actAll_cons_of_refused ha] at h
      cases h
    | next u =>
      rw [actAll_cons_of_next ha] at h
      have hu : (b || a.isCommand) = false → u.faultField = 0 := fun hb => by
        obtain ⟨hb, hc⟩ := Bool.or_eq_false_iff.1 hb
        exact faultField_of_not_isCommand ha hc (hs hb)
      have hcount : (∃ v ∈ (if b = true ∧ a = .read .status then [s.status] else []), faultBits v ≠ 0) ↔
          ShowsFault (a.readAt s) := by
        rw [showsFault_readAt]
        cases b with
        | false => simp [hs rfl]
        | true => by_cases hr : a = .read .status <;> simp [hr, State.faultField]
      obtain ⟨new, hnew, hiff⟩ := ih hu h
      refine ⟨a.readAt s ++ new, by rw [hnew, act_reads ha, List.append_assoc], ?_⟩
      rw [statusReads_cons_of_next ha, showsFault_append, ← hcount, ← hiff]
      simp only [List.mem_append, or_and_right, exists_or]

theorem runWentWrong_iff (as : List HostAction) (s : State) :
    runWentWrong as s = true ↔ ∃ v ∈ statusReads false as s, faultBits v ≠ 0 := by
  simp only [runWentWrong, List.any_eq_true, bne_iff_ne]

/-! ### A `STATUS` read between two commands -/

/-- No command looks at the values the host has read, or changes them. -/
theorem execPack_returnRead {s t : State} (h : execPack s = .next t) (r : ReadRecord) :
    execPack (s.returnRead r) = .next (t.returnRead r) := by
  rcases Nat.lt_or_ge 2040 s.bitLength with hL | hL
  · rw [execPack_overflow hL] at h
    cases h
    exact execPack_overflow (s := s.returnRead r) hL
  · rw [execPack_succeeds hL] at h
    cases h
    exact execPack_succeeds (s := s.returnRead r) hL

theorem execUnpack_returnRead {s t : State} (h : execUnpack s = .next t) (r : ReadRecord) :
    execUnpack (s.returnRead r) = .next (t.returnRead r) := by
  rcases Nat.lt_or_ge s.available (1 + s.byteCount) with hA | hA
  · rw [execUnpack_short (.inr hA)] at h
    cases h
    exact execUnpack_short (s := s.returnRead r) (.inr hA)
  · rw [execUnpack_succeeds hA] at h
    cases h
    exact execUnpack_succeeds (s := s.returnRead r) hA

theorem command_returnRead {c : Byte} {s t : State} (h : command c s = .next t) (r : ReadRecord) :
    command c (s.returnRead r) = .next (t.returnRead r) := by
  cases hd : decode c with
  | instr i =>
    rw [command_of_decode hd] at h ⊢
    cases i with
    | pack => exact execPack_returnRead h r
    | unpack => exact execUnpack_returnRead h r
  | illegal w =>
    simp only [command, hd, raise] at h ⊢
    cases h
    rfl

/-! ### The statements -/

/-- Settles O30: the operand of a command is a function of the cells its length covers, and those are written. -/
theorem writtenOperandsUseNoFreeValue : Obligations.WrittenOperandsUseNoFreeValue :=
  ⟨fun _ e h => execPack_withEpoch h e, fun _ e h => execUnpack_withEpoch h e⟩

/-- Settles O39, by induction on the actions: the actions still to come pass through each one unchanged. -/
theorem stepsPerformTheRunOfTheHostActions : Obligations.StepsPerformTheRunOfTheHostActions := by
  intro as rest s
  induction as generalizing s with
  | nil => rfl
  | cons a as ih =>
    have hstep := step_withActions a (as ++ rest) s
    have hact := act_withActions a rest s
    cases ha : act a s with
    | next t =>
      rw [ha] at hstep hact
      exact (core_run_next hstep).trans ((ih t).trans (actAll_cons_of_next hact).symm)
    | fault r => cases r
    | refused r =>
      rw [ha] at hstep hact
      exact (core_run_refused hstep).trans (actAll_cons_of_refused hact).symm

/-- Settles O40, by induction on the actions: both sides perform the first action and go on from where it ends, or both
end at its refusal. -/
theorem observedStatesAreTheStatesAfterEachAction : Obligations.ObservedStatesAreTheStatesAfterEachAction := by
  intro as s t k hk
  induction as generalizing s k with
  | nil => cases hk
  | cons a as ih =>
    rw [List.take_succ_cons]
    cases ha : act a s with
    | next u =>
      rw [statesAfter_cons_of_next ha, actAll_cons_of_next ha]
      cases k with
      | zero => simp [actAll]
      | succ k => exact ih u k (Nat.lt_of_succ_lt_succ hk)
    | fault r => cases r
    | refused r => simp [statesAfter, ha, actAll_cons_of_refused ha]

/-- Settles O41: from a state without a fault, the `STATUS` reads that do not count show none. -/
theorem runIsJudgedByItsStatusReads : Obligations.RunIsJudgedByItsStatusReads := by
  intro as s t hs h
  obtain ⟨new, hnew, hiff⟩ := exists_reads_of_actAll (b := false) (fun _ => hs) h
  exact ⟨new, hnew, (runWentWrong_iff as s).trans hiff⟩

/-- Settles O42: the reads that count stay when the run goes on. -/
theorem runGoneWrongStaysWrong : Obligations.RunGoneWrongStaysWrong := by
  intro as more s h
  obtain ⟨v, hv, hf⟩ := (runWentWrong_iff as s).1 h
  refine (runWentWrong_iff _ s).2 ⟨v, ?_, hf⟩
  rw [statusReads_append]
  exact List.mem_append_left _ hv

/-- Settles O43: each run's counted reads are written out; the second command ends the same whether or not a read came
before it. -/
theorem runJudgesTheCommandThatWasRead : Obligations.RunJudgesTheCommandThatWasRead := by
  intro c c' s
  obtain ⟨t, ht⟩ := command_completes c s
  obtain ⟨u, hu⟩ := command_completes c' t
  refine ⟨t, u, (act_writeCmd c s).trans ht, (act_writeCmd c' t).trans hu, ?_, ?_, ?_, ?_⟩
  · rw [runWentWrong, statusReads_readStatus]
    rfl
  · rw [runWentWrong, statusReads_command ht, statusReads_readStatus]
    simp [statusReads, State.faulted, State.faultField]
  · rw [runWentWrong, statusReads_command ht, statusReads_command hu, statusReads_readStatus]
    simp [statusReads, State.faulted, State.faultField]
  · rw [runWentWrong, statusReads_command ht, statusReads_readStatus,
      statusReads_command (command_returnRead hu _), statusReads_readStatus]
    simp [statusReads, State.faulted, State.faultField]

/-- Settles O2: the reset event's state lists no cell, and keeps what is the host's. -/
theorem resetEventRestoresTheResetTable : Obligations.ResetEventRestoresTheResetTable :=
  fun s => ⟨s.resetEvent, rfl, s.resetEvent_status, s.resetEvent_nbits, s.resetEvent_nbytes, fun _ => rfl, fun _ => rfl,
    s.resetEvent_epoch, s.resetEvent_actions, s.resetEvent_reads⟩

/-- Settles O3: at reset the sequence to pack is empty and no byte is available to unpack. -/
theorem commandsStraightAfterReset : Obligations.CommandsStraightAfterReset := by
  have hstep := stepRunsTheDecodedCommand.2 State.reset
  obtain ⟨t, ht, hzero, hcount, -, hrest, -⟩ := packOfTheEmptySequence State.reset rfl
  exact ⟨⟨t, (hstep .pack rfl).trans ht, congrArg State.status hrest, hcount, hzero⟩,
    (hstep .unpack rfl).trans ((unpackFaultsExactlyOnShortInput State.reset).1 rfl)⟩

end Sys2Proof.Machine
end
